-- ==== Sys2Proof/Word.lean ====
section
/-! DEFINITION. The machine's one data width: every register, operand and memory cell is a byte (R11, R29). -/

namespace Sys2Proof

/-- A byte, 0 to 255, always unsigned (R7). -/
abbrev Byte := BitVec 8

end Sys2Proof
end

