-- ==== Sys2Proof/Config.lean ====
section
/-! DEFINITION. The names the spec's parameters range over (registers, flags, fault kinds, operations, forms) and
the parameters themselves (00_scope.md R6). The default values of the parameters stand in Decode.lean and
Machine/Params.lean. -/

namespace Sys2Proof

/-- The 8 register slots (R11). -/
inductive Reg where
  | a | b | c | d | ip | sp | fl | ha
deriving DecidableEq, Repr

/-- The three flags of `FL`; the hardware has no other (R15, R20). A query names one flag (93 U7). -/
inductive Flag where
  | z | c | err
deriving DecidableEq, Repr

/-- The closed set of fault kinds (R97, 93 U12). -/
inductive FaultKind where
  | unmappedOpcode
  | invalidRegisterId
  | invalidControlTarget
deriving DecidableEq, Repr

/-- The operand layouts of R39. -/
inductive Form where
  | n | r | i | rr | rm | ri | mr | mi
deriving DecidableEq, Repr

/-- The 34 opcode names of R44, in the table's order. -/
inductive Op where
  | hlt | movRR | movRM | movRI | movMR | movMI | incR | decR
  | addRR | addRM | addRI | subRR | subRM | subRI
  | andRR | andRM | andRI | orRR | orRM | orRI | xorRR | xorRM | xorRI
  | notR | cmpRR | cmpRM | cmpRI
  | jmpI | jzI | jnzI | jcI | jncI | jaI | jnaI
deriving DecidableEq, Repr

/-- Every opcode name once. -/
def Op.all : List Op :=
  [.hlt, .movRR, .movRM, .movRI, .movMR, .movMI, .incR, .decR,
   .addRR, .addRM, .addRI, .subRR, .subRM, .subRI,
   .andRR, .andRM, .andRI, .orRR, .orRM, .orRI, .xorRR, .xorRM, .xorRI,
   .notR, .cmpRR, .cmpRM, .cmpRI,
   .jmpI, .jzI, .jnzI, .jcI, .jncI, .jaI, .jnaI]

/-- Every register slot once, in the order of R11. -/
def Reg.all : List Reg := [.a, .b, .c, .d, .ip, .sp, .fl, .ha]

/-- `OPCODE_MAP`: any injective map from opcode names to bytes (R6, R44, D1). -/
structure OpcodeMap where
  byteOf : Op → Byte
  injective : ∀ o p, byteOf o = byteOf p → o = p

/-- `REG_ID_MAP`: any bijection of the 8 names onto the operand bytes 0 to 7 (R6, D2). -/
structure RegIdMap where
  idOf : Reg → Byte
  injective : ∀ r q, idOf r = idOf q → r = q
  idOf_lt : ∀ r, (idOf r).toNat < 8
  surjective : ∀ b : Byte, b.toNat < 8 → ∃ r, idOf r = b

/-- `FLAG_BITS`: three distinct bit positions of `FL` (R6, R15, D4). -/
structure FlagBits where
  bitOf : Flag → Fin 8
  injective : ∀ f g, bitOf f = bitOf g → f = g

/-- The parameters a model takes as an argument (R6). Every operation of the machine that depends on one takes this
record; `exec` and `step` use the spec's defaults. -/
structure Config where
  opcodeMap : OpcodeMap
  regIdMap : RegIdMap
  flagBits : FlagBits
  /-- `JUMP_BOUND`: whether a jump target is valid (R87, D8). -/
  jumpBound : Nat → Bool
  /-- `FAULT_MESSAGE(kind)`: the bytes of the message, OPEN (R99, D17). -/
  faultMessage : FaultKind → List Byte

/-- The free value of the model (log entry 5, DESIGN CHOICE): the spec gives the fault message no text and asks that
claims not depend on its bytes (R99, D17), so the constant has no body. -/
opaque Config.openFaultMessage : FaultKind → List Byte

end Sys2Proof
end

