-- ==== Sys2Proof/Syntax.lean ====
section
/-! DEFINITION. The instructions, one constructor per row of spec/opcode_table.json, operands in the order of R40. -/

namespace Sys2Proof

/-- A register-id operand byte. The byte is kept as fetched: one that names no slot is found when the instruction
resolves it (R41, R46, R97; log entry 13). -/
abbrev RegId := Byte

/-- A memory offset operand byte, relative to `HA` (R42). -/
abbrev Offset := Byte

/-- An immediate operand byte (R43). -/
abbrev Imm := Byte

/-- A jump's absolute address operand byte (R43). -/
abbrev Target := Byte

/-- The 34 instructions (R44): `d` destination register id, `s` source register id, `m` memory offset,
`i` immediate, `r` register id, `a` jump address (for `CMP`, `a` and `b` are the compared operands). -/
inductive Instr where
  | hlt
  | movRR (d s : RegId)
  | movRM (d : RegId) (m : Offset)
  | movRI (d : RegId) (i : Imm)
  | movMR (m : Offset) (s : RegId)
  | movMI (m : Offset) (i : Imm)
  | incR (r : RegId)
  | decR (r : RegId)
  | addRR (d s : RegId)
  | addRM (d : RegId) (m : Offset)
  | addRI (d : RegId) (i : Imm)
  | subRR (d s : RegId)
  | subRM (d : RegId) (m : Offset)
  | subRI (d : RegId) (i : Imm)
  | andRR (d s : RegId)
  | andRM (d : RegId) (m : Offset)
  | andRI (d : RegId) (i : Imm)
  | orRR (d s : RegId)
  | orRM (d : RegId) (m : Offset)
  | orRI (d : RegId) (i : Imm)
  | xorRR (d s : RegId)
  | xorRM (d : RegId) (m : Offset)
  | xorRI (d : RegId) (i : Imm)
  | notR (r : RegId)
  | cmpRR (a b : RegId)
  | cmpRM (a : RegId) (m : Offset)
  | cmpRI (a : RegId) (i : Imm)
  | jmpI (a : Target)
  | jzI (a : Target)
  | jnzI (a : Target)
  | jcI (a : Target)
  | jncI (a : Target)
  | jaI (a : Target)
  | jnaI (a : Target)
deriving DecidableEq, Repr

end Sys2Proof
end

