-- ==== Sys2Proof/WellFormed.lean ====
section
/-! DEFINITION. The one thing an instruction's operands can get wrong: a register id that names no slot (R41, R46). -/

namespace Sys2Proof

/-- A register id names a slot iff it is 0 to 7 (R41), under every `REG_ID_MAP`. -/
def RegId.names (b : RegId) : Bool := b.toNat < 8

/-- The register-id operands of an instruction, in operand order. -/
def Instr.regIds : Instr → List RegId
  | .movRR d s | .addRR d s | .subRR d s | .andRR d s | .orRR d s | .xorRR d s | .cmpRR d s => [d, s]
  | .movRM d _ | .addRM d _ | .subRM d _ | .andRM d _ | .orRM d _ | .xorRM d _ | .cmpRM d _ => [d]
  | .movRI d _ | .addRI d _ | .subRI d _ | .andRI d _ | .orRI d _ | .xorRI d _ | .cmpRI d _ => [d]
  | .movMR _ s => [s]
  | .incR r | .decR r | .notR r => [r]
  | .hlt | .movMI _ _ | .jmpI _ | .jzI _ | .jnzI _ | .jcI _ | .jncI _ | .jaI _ | .jnaI _ => []

/-- An instruction is well formed iff every register id it holds names a slot. Memory offsets, immediates and jump
addresses have no invalid values (R46). -/
def Instr.wf (i : Instr) : Bool := i.regIds.all RegId.names

end Sys2Proof
end

