-- ==== Sys2Proof/Decode.lean ====
section
/-! DEFINITION. The decoder (30_encoding.md R38 to R46), the default `OPCODE_MAP` (R44), and the encoder written from
the same table. -/

namespace Sys2Proof

/-- Why the decoder refuses: the opcode byte is outside the image of `OPCODE_MAP` (R45). It is the only reason (R46). -/
inductive DecodeError where
  | unmappedOpcode (b : Byte)
deriving DecidableEq, Repr

/-- The bytes 0x00 to 0x21 of R44's table. -/
def defaultOpcodeByte : Op → Byte
  | .hlt => 0x00
  | .movRR => 0x01
  | .movRM => 0x02
  | .movRI => 0x03
  | .movMR => 0x04
  | .movMI => 0x05
  | .incR => 0x06
  | .decR => 0x07
  | .addRR => 0x08
  | .addRM => 0x09
  | .addRI => 0x0A
  | .subRR => 0x0B
  | .subRM => 0x0C
  | .subRI => 0x0D
  | .andRR => 0x0E
  | .andRM => 0x0F
  | .andRI => 0x10
  | .orRR => 0x11
  | .orRM => 0x12
  | .orRI => 0x13
  | .xorRR => 0x14
  | .xorRM => 0x15
  | .xorRI => 0x16
  | .notR => 0x17
  | .cmpRR => 0x18
  | .cmpRM => 0x19
  | .cmpRI => 0x1A
  | .jmpI => 0x1B
  | .jzI => 0x1C
  | .jnzI => 0x1D
  | .jcI => 0x1E
  | .jncI => 0x1F
  | .jaI => 0x20
  | .jnaI => 0x21

/-- The opcode name a byte selects under a map, if any (R44, R45). -/
def opWithByte (byteOf : Op → Byte) (b : Byte) : Option Op :=
  Op.all.find? fun o => byteOf o == b

/-- The default table is one-to-one: each name is found again from its own byte. -/
theorem opWithByte_defaultOpcodeByte (o : Op) : opWithByte defaultOpcodeByte (defaultOpcodeByte o) = some o := by
  cases o <;> decide

/-- The default `OPCODE_MAP` (R44, D1; log entry 1). -/
def defaultOpcodeMap : OpcodeMap where
  byteOf := defaultOpcodeByte
  injective := by
    intro o p h
    have ho := opWithByte_defaultOpcodeByte o
    rw [h, opWithByte_defaultOpcodeByte p] at ho
    exact (Option.some.inj ho).symm

/-- The opcode name an instruction has. -/
def Instr.op : Instr → Op
  | .hlt => .hlt
  | .movRR _ _ => .movRR
  | .movRM _ _ => .movRM
  | .movRI _ _ => .movRI
  | .movMR _ _ => .movMR
  | .movMI _ _ => .movMI
  | .incR _ => .incR
  | .decR _ => .decR
  | .addRR _ _ => .addRR
  | .addRM _ _ => .addRM
  | .addRI _ _ => .addRI
  | .subRR _ _ => .subRR
  | .subRM _ _ => .subRM
  | .subRI _ _ => .subRI
  | .andRR _ _ => .andRR
  | .andRM _ _ => .andRM
  | .andRI _ _ => .andRI
  | .orRR _ _ => .orRR
  | .orRM _ _ => .orRM
  | .orRI _ _ => .orRI
  | .xorRR _ _ => .xorRR
  | .xorRM _ _ => .xorRM
  | .xorRI _ _ => .xorRI
  | .notR _ => .notR
  | .cmpRR _ _ => .cmpRR
  | .cmpRM _ _ => .cmpRM
  | .cmpRI _ _ => .cmpRI
  | .jmpI _ => .jmpI
  | .jzI _ => .jzI
  | .jnzI _ => .jnzI
  | .jcI _ => .jcI
  | .jncI _ => .jncI
  | .jaI _ => .jaI
  | .jnaI _ => .jnaI

/-- The form each opcode name has (R39, R44). -/
def Op.form : Op → Form
  | .hlt => .n
  | .movRR | .addRR | .subRR | .andRR | .orRR | .xorRR | .cmpRR => .rr
  | .movRM | .addRM | .subRM | .andRM | .orRM | .xorRM | .cmpRM => .rm
  | .movRI | .addRI | .subRI | .andRI | .orRI | .xorRI | .cmpRI => .ri
  | .movMR => .mr
  | .movMI => .mi
  | .incR | .decR | .notR => .r
  | .jmpI | .jzI | .jnzI | .jcI | .jncI | .jaI | .jnaI => .i

/-- The length in bytes of each form (R39). -/
def Form.length : Form → Nat
  | .n => 1
  | .r | .i => 2
  | .rr | .rm | .ri | .mr | .mi => 3

/-- The length in bytes of an instruction; the opcode alone fixes it (R38). -/
def Instr.length (i : Instr) : Nat := i.op.form.length

/-- The instruction an opcode name makes of the operand bytes 1 and 2, in the order of R40. A form shorter than 3
bytes leaves the bytes after it unread. -/
def Op.build (o : Op) (b1 b2 : Byte) : Instr :=
  match o with
  | .hlt => .hlt
  | .movRR => .movRR b1 b2
  | .movRM => .movRM b1 b2
  | .movRI => .movRI b1 b2
  | .movMR => .movMR b1 b2
  | .movMI => .movMI b1 b2
  | .incR => .incR b1
  | .decR => .decR b1
  | .addRR => .addRR b1 b2
  | .addRM => .addRM b1 b2
  | .addRI => .addRI b1 b2
  | .subRR => .subRR b1 b2
  | .subRM => .subRM b1 b2
  | .subRI => .subRI b1 b2
  | .andRR => .andRR b1 b2
  | .andRM => .andRM b1 b2
  | .andRI => .andRI b1 b2
  | .orRR => .orRR b1 b2
  | .orRM => .orRM b1 b2
  | .orRI => .orRI b1 b2
  | .xorRR => .xorRR b1 b2
  | .xorRM => .xorRM b1 b2
  | .xorRI => .xorRI b1 b2
  | .notR => .notR b1
  | .cmpRR => .cmpRR b1 b2
  | .cmpRM => .cmpRM b1 b2
  | .cmpRI => .cmpRI b1 b2
  | .jmpI => .jmpI b1
  | .jzI => .jzI b1
  | .jnzI => .jnzI b1
  | .jcI => .jcI b1
  | .jncI => .jncI b1
  | .jaI => .jaI b1
  | .jnaI => .jnaI b1

/-- The decoder for any `OPCODE_MAP`: from the opcode byte and the two bytes after it, the instruction they begin with,
or the reason there is none. It is total (R46). -/
def decodeWith (m : OpcodeMap) (b0 b1 b2 : Byte) : Except DecodeError Instr :=
  match opWithByte m.byteOf b0 with
  | none => .error (.unmappedOpcode b0)
  | some o => .ok (o.build b1 b2)

/-- The decoder under the default map. -/
def decode (b0 b1 b2 : Byte) : Except DecodeError Instr := decodeWith defaultOpcodeMap b0 b1 b2

/-- The operand bytes of an instruction, in the order of R40. -/
def Instr.operandBytes : Instr → List Byte
  | .hlt => []
  | .movRR x y => [x, y]
  | .movRM x y => [x, y]
  | .movRI x y => [x, y]
  | .movMR x y => [x, y]
  | .movMI x y => [x, y]
  | .incR x => [x]
  | .decR x => [x]
  | .addRR x y => [x, y]
  | .addRM x y => [x, y]
  | .addRI x y => [x, y]
  | .subRR x y => [x, y]
  | .subRM x y => [x, y]
  | .subRI x y => [x, y]
  | .andRR x y => [x, y]
  | .andRM x y => [x, y]
  | .andRI x y => [x, y]
  | .orRR x y => [x, y]
  | .orRM x y => [x, y]
  | .orRI x y => [x, y]
  | .xorRR x y => [x, y]
  | .xorRM x y => [x, y]
  | .xorRI x y => [x, y]
  | .notR x => [x]
  | .cmpRR x y => [x, y]
  | .cmpRM x y => [x, y]
  | .cmpRI x y => [x, y]
  | .jmpI x => [x]
  | .jzI x => [x]
  | .jnzI x => [x]
  | .jcI x => [x]
  | .jncI x => [x]
  | .jaI x => [x]
  | .jnaI x => [x]

/-- The bytes of an instruction under any `OPCODE_MAP`: the opcode, then the operands (R38, R39). -/
def encodeWith (m : OpcodeMap) (i : Instr) : List Byte := m.byteOf i.op :: i.operandBytes

/-- The bytes of an instruction under the default map. -/
def encode (i : Instr) : List Byte := encodeWith defaultOpcodeMap i

/-- Byte `k` of an instruction whose bits are `w` numbered as spec/opcode_table.json numbers them: byte 0 is the first
byte in memory and has bits 7 to 0. Bits from `nbits` up are 0. -/
def tableByte (nbits w k : Nat) : Byte := BitVec.ofNat 8 ((w % 2 ^ nbits) / 256 ^ k)

/-- The instruction the decoder reads from the bits `w` of a row of `nbits` bits; the bytes above are zero. -/
def decodeTableWord (nbits w : Nat) : Option Instr :=
  match decode (tableByte nbits w 0) (tableByte nbits w 1) (tableByte nbits w 2) with
  | .ok i => some i
  | .error _ => none

end Sys2Proof
end

