-- ==== Sys2Proof/Machine/Params.lean ====
section
/-! DEFINITION. The fixed constants and the default parameters of 00_scope.md R6. -/

namespace Sys2Proof.Machine

/-- `MEM_SIZE` (R6, R26). -/
def memSize : Nat := 65536

/-- `DIAG_BASE`, the first address of the dump window (R6, R99). -/
def diagBase : Nat := 0xF000

/-- `DIAG_LEN`, the length of the dump window (R6, R99). -/
def diagLen : Nat := 4096

/-- The register ids of R11's table. -/
def defaultRegId : Reg → Byte
  | .a => 0
  | .b => 1
  | .c => 2
  | .d => 3
  | .ip => 4
  | .sp => 5
  | .fl => 6
  | .ha => 7

/-- The default `REG_ID_MAP` (R6, R11, D2; log entry 2). -/
def defaultRegIdMap : RegIdMap where
  idOf := defaultRegId
  injective := by intro r q; cases r <;> cases q <;> decide
  idOf_lt := by intro r; cases r <;> decide
  surjective := by
    intro b hb
    have key : ∀ n : Fin 8, ∃ r ∈ Reg.all, defaultRegId r = BitVec.ofNat 8 n.val := by decide
    obtain ⟨r, -, hr⟩ := key ⟨b.toNat, hb⟩
    exact ⟨r, by rw [hr]; simp⟩

/-- The flag positions of R15: `Z` bit 0, `C` bit 1, `ERR` bit 2. -/
def defaultFlagBit : Flag → Fin 8
  | .z => 0
  | .c => 1
  | .err => 2

/-- The default `FLAG_BITS` (R6, R15, D4; log entry 3). -/
def defaultFlagBits : FlagBits where
  bitOf := defaultFlagBit
  injective := by intro f g; cases f <;> cases g <;> decide

/-- The default `JUMP_BOUND`: `target < MEM_SIZE` (R6, R87, D8; log entry 4). -/
def defaultJumpBound (target : Nat) : Bool := target < memSize

/-- The configuration `exec` and `step` run under: every decided parameter at its default, the message open (R6). -/
def defaultConfig : Config where
  opcodeMap := defaultOpcodeMap
  regIdMap := defaultRegIdMap
  flagBits := defaultFlagBits
  jumpBound := defaultJumpBound
  faultMessage := Config.openFaultMessage

end Sys2Proof.Machine
end

