-- ==== Sys2Proof/Machine/State.lean ====
section
/-! DEFINITION. The machine's state as plain data, its state after reset, and the reasons a step can stop. -/

namespace Sys2Proof.Machine

/-- The run status (R24). `faulted` carries the kind the fault reporter was given: the spec lets a model tag the
`Faulted` result with it (R97, D20; log entry 6). No instruction can read the status. -/
inductive RunStatus where
  | running
  | halted
  | faulted (kind : FaultKind)
deriving DecidableEq, Repr

/-- One transfer of the fault reporter's output: `diag_data` and `diag_last` (R48, R99). -/
structure DiagByte where
  data : Byte
  last : Bool
deriving DecidableEq, Repr

/-- The memory array (R23, R26) as the list of its bytes that differ from what an unlisted address reads as, addresses
strictly rising. -/
abbrev Memory := List Host.Cell

/-- Everything the block holds (10_state.md, R25) and the stream it has emitted since reset (R99, R105). -/
structure State where
  a : Byte
  b : Byte
  c : Byte
  d : Byte
  ip : Byte
  sp : Byte
  fl : Byte
  ha : Byte
  mem : Memory
  status : RunStatus
  diag : List DiagByte
deriving DecidableEq, Repr

/-- The state after reset with the empty program image (R105, R106; log entry 8): every register 0 but `SP` = 0xFF,
every memory byte 0, `Running`, nothing emitted. -/
def State.reset : State where
  a := 0x00
  b := 0x00
  c := 0x00
  d := 0x00
  ip := 0x00
  sp := 0xFF
  fl := 0x00
  ha := 0x00
  mem := []
  status := .running
  diag := []

/-- Why the model itself stops. The hardware's own faults are no such stop: they end in a next state (R98). -/
inductive Fault where
  /-- Raised by a memory access at an address past 65535, which the spec leaves undefined and lets a model fault on
  (R28, 93 U1). Safe: the model stops where the document gives no behaviour. No address the machine forms is that
  large (R27), so no state reaches it. -/
  | addressOutOfRange (address : Nat)
deriving DecidableEq, Repr

/-- Why the model gives no meaning. -/
inductive Refusal where
  /-- Raised by `exec` for an instruction that has no meaning yet. Safe. No arm uses it: all 34 are modelled. -/
  | notModelled (mnemonic : String)
  /-- Raised by the boot order for a program image longer than memory, which the spec makes a premise of every launch
  (R106, 93 U6). Safe: such a launch has no behaviour in the spec. -/
  | imageTooLarge (length : Nat)
deriving DecidableEq, Repr

/-- How an instruction's pseudocode leaves its straight line: `raise Fault(kind)` of the hardware (R8, R98), or a stop
of the model. -/
inductive Raise where
  | trap (kind : FaultKind)
  | stop (reason : Fault)
deriving DecidableEq, Repr

end Sys2Proof.Machine
end

