-- ==== Sys2Proof/Machine/Ops.lean ====
section
/-! DEFINITION. The named operations over memory and registers (R8), raising a hardware fault (R53, R98, R99), and how
an instruction's outcome is formed from its pseudocode. -/

namespace Sys2Proof.Machine

/-! ### Memory -/

/-- What an address the list does not hold reads as: 0, as memory after reset outside the image (R105, R106;
log entry 8). -/
def unwrittenByte : Byte := 0x00

/-- The byte at an address. -/
def Memory.read : Memory → Nat → Byte
  | [], _ => unwrittenByte
  | (k, w) :: rest, addr => if addr = k then w else Memory.read rest addr

/-- Memory with one byte replaced, in canonical form: a byte that an unlisted address reads as is not listed. -/
def Memory.write : Memory → Nat → Byte → Memory
  | [], addr, v => if v = unwrittenByte then [] else [(addr, v)]
  | (k, w) :: rest, addr, v =>
    if addr < k then
      if v = unwrittenByte then (k, w) :: rest else (addr, v) :: (k, w) :: rest
    else if addr = k then
      if v = unwrittenByte then rest else (addr, v) :: rest
    else
      (k, w) :: Memory.write rest addr v

/-- The canonical form from an address up: addresses strictly rising and inside memory, no entry equal to what an
unlisted address reads as. -/
def Memory.wfFrom : Nat → Memory → Bool
  | _, [] => true
  | lo, (k, w) :: rest => decide (lo ≤ k) && decide (k < memSize) && decide (w ≠ unwrittenByte) && Memory.wfFrom (k + 1) rest

/-- The canonical form of memory. -/
def Memory.wf (m : Memory) : Bool := Memory.wfFrom 0 m

/-- `MemRead(addr, 1)` (R8, R31), with the assertion R28 allows on the address. -/
def memRead (addr : Nat) (s : State) : Except Raise Byte :=
  if addr < memSize then .ok (Memory.read s.mem addr) else .error (.stop (.addressOutOfRange addr))

/-- `MemWrite(addr, 1, v)` (R8, R31), with the assertion R28 allows on the address. -/
def memWrite (addr : Nat) (v : Byte) (s : State) : Except Raise State :=
  if addr < memSize then .ok { s with mem := Memory.write s.mem addr v }
  else .error (.stop (.addressOutOfRange addr))

/-! ### Registers -/

/-- `x[r]`: the byte the slot holds (R12). -/
def State.readReg (s : State) : Reg → Byte
  | .a => s.a
  | .b => s.b
  | .c => s.c
  | .d => s.d
  | .ip => s.ip
  | .sp => s.sp
  | .fl => s.fl
  | .ha => s.ha

/-- `x[r] <- v` (R12). A byte is already modulo 256; any slot may be written, no slot is hard-wired (R11, R13). -/
def State.writeReg (s : State) (r : Reg) (v : Byte) : State :=
  match r with
  | .a => { s with a := v }
  | .b => { s with b := v }
  | .c => { s with c := v }
  | .d => { s with d := v }
  | .ip => { s with ip := v }
  | .sp => { s with sp := v }
  | .fl => { s with fl := v }
  | .ha => { s with ha := v }

/-- `IP` after `n` fetched bytes: one added for each, modulo 256 (R14, R51). -/
def State.advance (s : State) (n : Nat) : State := { s with ip := s.ip + BitVec.ofNat 8 n }

/-! ### Single flag bits -/

/-- The byte with bit `k` replaced and the other seven kept (`set_flag`, R15). -/
def byteWithBit (v : Byte) (k : Nat) (on : Bool) : Byte :=
  if on then v ||| BitVec.ofNat 8 (2 ^ k) else v &&& ~~~(BitVec.ofNat 8 (2 ^ k))

/-- `FL.f`: whether the flag's bit is set (`get_flag`, R8, R15). -/
def State.flag (cfg : Config) (s : State) (f : Flag) : Bool := s.fl.getLsbD (cfg.flagBits.bitOf f).val

/-- `FL.f <- on`: sets or clears that one bit of `FL` (`set_flag`, R8, R15). -/
def State.setFlag (cfg : Config) (s : State) (f : Flag) (on : Bool) : State :=
  { s with fl := byteWithBit s.fl (cfg.flagBits.bitOf f).val on }

/-! ### The fault reporter -/

/-- Marks the final byte of a stream as `diag_last` does (R99; log entry 16). -/
def markLast : List Byte → List DiagByte
  | [] => []
  | [v] => [⟨v, true⟩]
  | v :: w :: rest => ⟨v, false⟩ :: markLast (w :: rest)

/-- The dump window's bytes, in ascending address order (R99). -/
def diagWindow (m : Memory) : List Byte := (List.range diagLen).map fun k => Memory.read m (diagBase + k)

/-- `diag_stream` for a fault kind: the window, then the message (R99, C3). -/
def diagStream (cfg : Config) (kind : FaultKind) (m : Memory) : List DiagByte :=
  markLast (diagWindow m ++ cfg.faultMessage kind)

/-- `raise Fault(kind)` from the state `s0` saved at the start of the step (R53, R98): that state with `ERR` set, the
stream emitted and the status `Faulted`. Nothing is saved and no handler is entered, so there is no return either
(R101): only reset makes the status `Running` again. -/
def raiseFault (cfg : Config) (kind : FaultKind) (s0 : State) : State :=
  let s1 := s0.setFlag cfg .err true
  { s1 with diag := s1.diag ++ diagStream cfg kind s1.mem, status := .faulted kind }

/-- The outcome of a step whose state at its start was `s0`, from what its pseudocode did (R50 step 4, R53, R98). -/
def finish (cfg : Config) (s0 : State) : Except Raise State → Host.Outcome State Fault Refusal
  | .ok t => .next t
  | .error (.trap kind) => .next (raiseFault cfg kind s0)
  | .error (.stop reason) => .fault reason

end Sys2Proof.Machine
end

