-- ==== Sys2Proof/Machine/Flags.lean ====
section
/-! DEFINITION. The ALU: the unclamped integer of each operation (R56, R65), the flag-update rule `operate` (R55) and
the write-back order (R58). -/

namespace Sys2Proof.Machine

/-- `v mod 256` of an unclamped result (R7, R55). -/
def clampByte (x : Int) : Byte := BitVec.ofInt 8 x

/-- `operate(x)`: clears `Z` and `C`; sets `Z` iff the unclamped `x` is 0, else `C` iff it is outside 0 to 255; answers
the byte (R55, C1). -/
def operate (cfg : Config) (x : Int) (s : State) : Byte × State :=
  let s0 := (s.setFlag cfg .z false).setFlag cfg .c false
  if x = 0 then (0, s0.setFlag cfg .z true)
  else if x < 0 ∨ 255 < x then (clampByte x, s0.setFlag cfg .c true)
  else (clampByte x, s0)

/-- `ADD`, and `INC` with 1 (R56, R66). -/
def aluAdd (a b : Byte) : Int := (a.toNat : Int) + (b.toNat : Int)

/-- `SUB` and `CMP`, and `DEC` with 1 (R56, R67). -/
def aluSub (a b : Byte) : Int := (a.toNat : Int) - (b.toNat : Int)

/-- `AND` (R56). -/
def aluAnd (a b : Byte) : Int := ((a &&& b).toNat : Int)

/-- `OR` (R56). -/
def aluOr (a b : Byte) : Int := ((a ||| b).toNat : Int)

/-- `XOR` (R56). -/
def aluXor (a b : Byte) : Int := ((a ^^^ b).toNat : Int)

/-- `x[rd] <- operate(x)`: the flags first, then the destination, so a destination `FL` ends as the result byte
(R58). -/
def operateInto (cfg : Config) (rd : Reg) (x : Int) (s : State) : State :=
  ((operate cfg x s).2).writeReg rd (operate cfg x s).1

/-- `discard operate(x)`: only the flags change (R84). -/
def operateDiscard (cfg : Config) (x : Int) (s : State) : State := (operate cfg x s).2

end Sys2Proof.Machine
end

