-- ==== Sys2Proof/Machine/Operands.lean ====
section
/-! DEFINITION. Resolving operands (R41, R42, R43, R52, R57) and the jump primitive (R87). -/

namespace Sys2Proof.Machine

/-- `zext_16(v)`: the byte as a 16-bit address, its high 8 bits zero (R8). -/
def zext16 (v : Byte) : BitVec 16 := v.setWidth 16

/-- The slot a register id names under a map, if any (R41). -/
def slotOf (ids : RegIdMap) (b : RegId) : Option Reg := Reg.all.find? fun r => ids.idOf r == b

/-- `reg(b)`: the slot, or `raise Fault(InvalidRegisterId)` (R8, R41). -/
def resolveReg (cfg : Config) (b : RegId) : Except Raise Reg :=
  match slotOf cfg.regIdMap b with
  | some r => .ok r
  | none => .error (.trap .invalidRegisterId)

/-- `EA(m)`: the integer sum of `HA` and the offset, 0 to 510, not reduced modulo 256 (R42, R57). -/
def effectiveAddress (s : State) (m : Offset) : Nat := (zext16 s.ha).toNat + (zext16 m).toNat

/-- The forms a second operand takes (R9, R39). -/
inductive Source where
  | reg (id : RegId)
  | mem (offset : Offset)
  | imm (value : Imm)
deriving DecidableEq, Repr

/-- The value of a second operand, read in the state in which all the instruction's bytes are fetched (R52). -/
def readSource (cfg : Config) (src : Source) (s : State) : Except Raise Byte :=
  match src with
  | .reg id =>
    match resolveReg cfg id with
    | .ok r => .ok (s.readReg r)
    | .error e => .error e
  | .mem m => memRead (effectiveAddress s m) s
  | .imm i => .ok i

/-- `jump(target)`: validates the target, then `x[IP] <- target`, stored modulo 256 (R12, R87). -/
def jump (cfg : Config) (target : BitVec 16) (s : State) : Except Raise State :=
  if cfg.jumpBound target.toNat then .ok (s.writeReg .ip (target.setWidth 8))
  else .error (.trap .invalidControlTarget)

end Sys2Proof.Machine
end

