-- ==== Sys2Proof/Machine/Shapes.lean ====
section
/-! DEFINITION. The shared shapes of the instructions' pseudocode: each takes the state at the start of the step, fetches
the form's bytes, resolves the operands in the order of R52, and writes the destination last. -/

namespace Sys2Proof.Machine

/-- `x[rd] <- v` for a 3-byte `MOV` into a register (R60, R61, R62). -/
def moveInto (cfg : Config) (d : RegId) (src : Source) (s0 : State) : Host.Outcome State Fault Refusal :=
  finish cfg s0 do
    let s := s0.advance 3
    let rd ← resolveReg cfg d
    let v ← readSource cfg src s
    return s.writeReg rd v

/-- `MemWrite(EA(m), 1, v)` for a 3-byte `MOV` into memory (R63, R64). -/
def storeTo (cfg : Config) (m : Offset) (src : Source) (s0 : State) : Host.Outcome State Fault Refusal :=
  finish cfg s0 do
    let s := s0.advance 3
    let v ← readSource cfg src s
    memWrite (effectiveAddress s m) v s

/-- `x[rr] <- operate(f(x[rr], 1))` for the 2-byte `INC` and `DEC` (R65, R66, R67). -/
def aluByOne (cfg : Config) (f : Byte → Byte → Int) (r : RegId) (s0 : State) : Host.Outcome State Fault Refusal :=
  finish cfg s0 do
    let s := s0.advance 2
    let rr ← resolveReg cfg r
    return operateInto cfg rr (f (s.readReg rr) 1) s

/-- `x[rr] <- ~x[rr]` for the 2-byte `NOT`; `operate` is not called (R83, D7). -/
def complement (cfg : Config) (r : RegId) (s0 : State) : Host.Outcome State Fault Refusal :=
  finish cfg s0 do
    let s := s0.advance 2
    let rr ← resolveReg cfg r
    return s.writeReg rr (~~~(s.readReg rr))

/-- `x[rd] <- operate(f(x[rd], b))` for the 3-byte two-operand ALU forms (R65). -/
def aluInto (cfg : Config) (f : Byte → Byte → Int) (d : RegId) (src : Source) (s0 : State) :
    Host.Outcome State Fault Refusal :=
  finish cfg s0 do
    let s := s0.advance 3
    let rd ← resolveReg cfg d
    let b ← readSource cfg src s
    return operateInto cfg rd (f (s.readReg rd) b) s

/-- `discard operate(x[ra] - b)` for the 3-byte `CMP` forms: no register is written (R65, R84). -/
def compareWith (cfg : Config) (a : RegId) (src : Source) (s0 : State) : Host.Outcome State Fault Refusal :=
  finish cfg s0 do
    let s := s0.advance 3
    let ra ← resolveReg cfg a
    let b ← readSource cfg src s
    return operateDiscard cfg (aluSub (s.readReg ra) b) s

/-- A 2-byte jump to `zext_16(a)` if its condition holds of the flags at the start of the step; otherwise `IP` is past
the address operand (R87, R88). -/
def jumpIf (cfg : Config) (taken : Bool) (a : Target) (s0 : State) : Host.Outcome State Fault Refusal :=
  finish cfg s0 (if taken then jump cfg (zext16 a) (s0.advance 2) else .ok (s0.advance 2))

end Sys2Proof.Machine
end

