-- ==== Sys2Proof/Machine/Arith.lean ====
section
/-! DEFINITION. Arithmetic, logic and compare (42_arithmetic_logic.md). Each instruction has a meaning for any
configuration (`…With`) and one for the default configuration, which `exec` calls. -/

namespace Sys2Proof.Machine

/-- `INC_R`: `r <- r + 1` through `operate` (R66). -/
def execIncRWith (cfg : Config) (r : RegId) (st : State) : Host.Outcome State Fault Refusal :=
  aluByOne cfg aluAdd r st

/-- `INC_R` under the default configuration (R66). -/
def execIncR (r : RegId) (st : State) : Host.Outcome State Fault Refusal :=
  execIncRWith defaultConfig r st

/-- `DEC_R`: `r <- r - 1` through `operate` (R67). -/
def execDecRWith (cfg : Config) (r : RegId) (st : State) : Host.Outcome State Fault Refusal :=
  aluByOne cfg aluSub r st

/-- `DEC_R` under the default configuration (R67). -/
def execDecR (r : RegId) (st : State) : Host.Outcome State Fault Refusal :=
  execDecRWith defaultConfig r st

/-- `ADD_R_R`: `d <- d + s` through `operate` (R68). -/
def execAddRRWith (cfg : Config) (d s : RegId) (st : State) : Host.Outcome State Fault Refusal :=
  aluInto cfg aluAdd d (.reg s) st

/-- `ADD_R_R` under the default configuration (R68). -/
def execAddRR (d s : RegId) (st : State) : Host.Outcome State Fault Refusal :=
  execAddRRWith defaultConfig d s st

/-- `ADD_R_M`: `d <- d + memory[HA + m]` through `operate` (R69). -/
def execAddRMWith (cfg : Config) (d : RegId) (m : Offset) (st : State) : Host.Outcome State Fault Refusal :=
  aluInto cfg aluAdd d (.mem m) st

/-- `ADD_R_M` under the default configuration (R69). -/
def execAddRM (d : RegId) (m : Offset) (st : State) : Host.Outcome State Fault Refusal :=
  execAddRMWith defaultConfig d m st

/-- `ADD_R_I`: `d <- d + i` through `operate` (R70). -/
def execAddRIWith (cfg : Config) (d : RegId) (i : Imm) (st : State) : Host.Outcome State Fault Refusal :=
  aluInto cfg aluAdd d (.imm i) st

/-- `ADD_R_I` under the default configuration (R70). -/
def execAddRI (d : RegId) (i : Imm) (st : State) : Host.Outcome State Fault Refusal :=
  execAddRIWith defaultConfig d i st

/-- `SUB_R_R`: `d <- d - s` through `operate` (R71). -/
def execSubRRWith (cfg : Config) (d s : RegId) (st : State) : Host.Outcome State Fault Refusal :=
  aluInto cfg aluSub d (.reg s) st

/-- `SUB_R_R` under the default configuration (R71). -/
def execSubRR (d s : RegId) (st : State) : Host.Outcome State Fault Refusal :=
  execSubRRWith defaultConfig d s st

/-- `SUB_R_M`: `d <- d - memory[HA + m]` through `operate` (R72). -/
def execSubRMWith (cfg : Config) (d : RegId) (m : Offset) (st : State) : Host.Outcome State Fault Refusal :=
  aluInto cfg aluSub d (.mem m) st

/-- `SUB_R_M` under the default configuration (R72). -/
def execSubRM (d : RegId) (m : Offset) (st : State) : Host.Outcome State Fault Refusal :=
  execSubRMWith defaultConfig d m st

/-- `SUB_R_I`: `d <- d - i` through `operate` (R73). -/
def execSubRIWith (cfg : Config) (d : RegId) (i : Imm) (st : State) : Host.Outcome State Fault Refusal :=
  aluInto cfg aluSub d (.imm i) st

/-- `SUB_R_I` under the default configuration (R73). -/
def execSubRI (d : RegId) (i : Imm) (st : State) : Host.Outcome State Fault Refusal :=
  execSubRIWith defaultConfig d i st

/-- `AND_R_R`: `d <- d & s` through `operate` (R74). -/
def execAndRRWith (cfg : Config) (d s : RegId) (st : State) : Host.Outcome State Fault Refusal :=
  aluInto cfg aluAnd d (.reg s) st

/-- `AND_R_R` under the default configuration (R74). -/
def execAndRR (d s : RegId) (st : State) : Host.Outcome State Fault Refusal :=
  execAndRRWith defaultConfig d s st

/-- `AND_R_M`: `d <- d & memory[HA + m]` through `operate` (R75). -/
def execAndRMWith (cfg : Config) (d : RegId) (m : Offset) (st : State) : Host.Outcome State Fault Refusal :=
  aluInto cfg aluAnd d (.mem m) st

/-- `AND_R_M` under the default configuration (R75). -/
def execAndRM (d : RegId) (m : Offset) (st : State) : Host.Outcome State Fault Refusal :=
  execAndRMWith defaultConfig d m st

/-- `AND_R_I`: `d <- d & i` through `operate` (R76). -/
def execAndRIWith (cfg : Config) (d : RegId) (i : Imm) (st : State) : Host.Outcome State Fault Refusal :=
  aluInto cfg aluAnd d (.imm i) st

/-- `AND_R_I` under the default configuration (R76). -/
def execAndRI (d : RegId) (i : Imm) (st : State) : Host.Outcome State Fault Refusal :=
  execAndRIWith defaultConfig d i st

/-- `OR_R_R`: `d <- d | s` through `operate` (R77). -/
def execOrRRWith (cfg : Config) (d s : RegId) (st : State) : Host.Outcome State Fault Refusal :=
  aluInto cfg aluOr d (.reg s) st

/-- `OR_R_R` under the default configuration (R77). -/
def execOrRR (d s : RegId) (st : State) : Host.Outcome State Fault Refusal :=
  execOrRRWith defaultConfig d s st

/-- `OR_R_M`: `d <- d | memory[HA + m]` through `operate` (R78). -/
def execOrRMWith (cfg : Config) (d : RegId) (m : Offset) (st : State) : Host.Outcome State Fault Refusal :=
  aluInto cfg aluOr d (.mem m) st

/-- `OR_R_M` under the default configuration (R78). -/
def execOrRM (d : RegId) (m : Offset) (st : State) : Host.Outcome State Fault Refusal :=
  execOrRMWith defaultConfig d m st

/-- `OR_R_I`: `d <- d | i` through `operate` (R79). -/
def execOrRIWith (cfg : Config) (d : RegId) (i : Imm) (st : State) : Host.Outcome State Fault Refusal :=
  aluInto cfg aluOr d (.imm i) st

/-- `OR_R_I` under the default configuration (R79). -/
def execOrRI (d : RegId) (i : Imm) (st : State) : Host.Outcome State Fault Refusal :=
  execOrRIWith defaultConfig d i st

/-- `XOR_R_R`: `d <- d ^ s` through `operate` (R80). -/
def execXorRRWith (cfg : Config) (d s : RegId) (st : State) : Host.Outcome State Fault Refusal :=
  aluInto cfg aluXor d (.reg s) st

/-- `XOR_R_R` under the default configuration (R80). -/
def execXorRR (d s : RegId) (st : State) : Host.Outcome State Fault Refusal :=
  execXorRRWith defaultConfig d s st

/-- `XOR_R_M`: `d <- d ^ memory[HA + m]` through `operate` (R81). -/
def execXorRMWith (cfg : Config) (d : RegId) (m : Offset) (st : State) : Host.Outcome State Fault Refusal :=
  aluInto cfg aluXor d (.mem m) st

/-- `XOR_R_M` under the default configuration (R81). -/
def execXorRM (d : RegId) (m : Offset) (st : State) : Host.Outcome State Fault Refusal :=
  execXorRMWith defaultConfig d m st

/-- `XOR_R_I`: `d <- d ^ i` through `operate` (R82). -/
def execXorRIWith (cfg : Config) (d : RegId) (i : Imm) (st : State) : Host.Outcome State Fault Refusal :=
  aluInto cfg aluXor d (.imm i) st

/-- `XOR_R_I` under the default configuration (R82). -/
def execXorRI (d : RegId) (i : Imm) (st : State) : Host.Outcome State Fault Refusal :=
  execXorRIWith defaultConfig d i st

/-- `NOT_R`: `r <- 255 - r`, no flag (R83). -/
def execNotRWith (cfg : Config) (r : RegId) (st : State) : Host.Outcome State Fault Refusal :=
  complement cfg r st

/-- `NOT_R` under the default configuration (R83). -/
def execNotR (r : RegId) (st : State) : Host.Outcome State Fault Refusal :=
  execNotRWith defaultConfig r st

/-- `CMP_R_R`: `operate(d - s)`, discarded (R84). -/
def execCmpRRWith (cfg : Config) (d s : RegId) (st : State) : Host.Outcome State Fault Refusal :=
  compareWith cfg d (.reg s) st

/-- `CMP_R_R` under the default configuration (R84). -/
def execCmpRR (d s : RegId) (st : State) : Host.Outcome State Fault Refusal :=
  execCmpRRWith defaultConfig d s st

/-- `CMP_R_M`: `operate(d - memory[HA + m])`, discarded (R85). -/
def execCmpRMWith (cfg : Config) (d : RegId) (m : Offset) (st : State) : Host.Outcome State Fault Refusal :=
  compareWith cfg d (.mem m) st

/-- `CMP_R_M` under the default configuration (R85). -/
def execCmpRM (d : RegId) (m : Offset) (st : State) : Host.Outcome State Fault Refusal :=
  execCmpRMWith defaultConfig d m st

/-- `CMP_R_I`: `operate(d - i)`, discarded (R86). -/
def execCmpRIWith (cfg : Config) (d : RegId) (i : Imm) (st : State) : Host.Outcome State Fault Refusal :=
  compareWith cfg d (.imm i) st

/-- `CMP_R_I` under the default configuration (R86). -/
def execCmpRI (d : RegId) (i : Imm) (st : State) : Host.Outcome State Fault Refusal :=
  execCmpRIWith defaultConfig d i st

end Sys2Proof.Machine
end

