-- ==== Sys2Proof/Machine/Control.lean ====
section
/-! DEFINITION. Control transfer (43_control_transfer.md). Each instruction has a meaning for any
configuration (`…With`) and one for the default configuration, which `exec` calls. -/

namespace Sys2Proof.Machine

/-- `JMP_I`: always taken (R89). -/
def execJmpIWith (cfg : Config) (a : Target) (st : State) : Host.Outcome State Fault Refusal :=
  jumpIf cfg true a st

/-- `JMP_I` under the default configuration (R89). -/
def execJmpI (a : Target) (st : State) : Host.Outcome State Fault Refusal :=
  execJmpIWith defaultConfig a st

/-- `JZ_I`: taken iff `Z` = 1 (R90). -/
def execJzIWith (cfg : Config) (a : Target) (st : State) : Host.Outcome State Fault Refusal :=
  jumpIf cfg (st.flag cfg .z) a st

/-- `JZ_I` under the default configuration (R90). -/
def execJzI (a : Target) (st : State) : Host.Outcome State Fault Refusal :=
  execJzIWith defaultConfig a st

/-- `JNZ_I`: taken iff `Z` = 0 (R91). -/
def execJnzIWith (cfg : Config) (a : Target) (st : State) : Host.Outcome State Fault Refusal :=
  jumpIf cfg (!st.flag cfg .z) a st

/-- `JNZ_I` under the default configuration (R91). -/
def execJnzI (a : Target) (st : State) : Host.Outcome State Fault Refusal :=
  execJnzIWith defaultConfig a st

/-- `JC_I`: taken iff `C` = 1 (R92). -/
def execJcIWith (cfg : Config) (a : Target) (st : State) : Host.Outcome State Fault Refusal :=
  jumpIf cfg (st.flag cfg .c) a st

/-- `JC_I` under the default configuration (R92). -/
def execJcI (a : Target) (st : State) : Host.Outcome State Fault Refusal :=
  execJcIWith defaultConfig a st

/-- `JNC_I`: taken iff `C` = 0 (R93). -/
def execJncIWith (cfg : Config) (a : Target) (st : State) : Host.Outcome State Fault Refusal :=
  jumpIf cfg (!st.flag cfg .c) a st

/-- `JNC_I` under the default configuration (R93). -/
def execJncI (a : Target) (st : State) : Host.Outcome State Fault Refusal :=
  execJncIWith defaultConfig a st

/-- `JA_I`: taken iff `Z` = 0 and `C` = 0 (R94). -/
def execJaIWith (cfg : Config) (a : Target) (st : State) : Host.Outcome State Fault Refusal :=
  jumpIf cfg (!st.flag cfg .z && !st.flag cfg .c) a st

/-- `JA_I` under the default configuration (R94). -/
def execJaI (a : Target) (st : State) : Host.Outcome State Fault Refusal :=
  execJaIWith defaultConfig a st

/-- `JNA_I`: taken iff `Z` = 1 or `C` = 1 (R95). -/
def execJnaIWith (cfg : Config) (a : Target) (st : State) : Host.Outcome State Fault Refusal :=
  jumpIf cfg (st.flag cfg .z || st.flag cfg .c) a st

/-- `JNA_I` under the default configuration (R95). -/
def execJnaI (a : Target) (st : State) : Host.Outcome State Fault Refusal :=
  execJnaIWith defaultConfig a st

end Sys2Proof.Machine
end

