-- ==== Sys2Proof/Machine/Move.lean ====
section
/-! DEFINITION. `HLT` and the `MOV` family (41_halt_and_move.md). Each instruction has a meaning for any
configuration (`…With`) and one for the default configuration, which `exec` calls. -/

namespace Sys2Proof.Machine

/-- `HLT`: stop execution; `IP` stays at the `HLT` byte and nothing else changes (R59). -/
def execHltWith (_cfg : Config) (st : State) : Host.Outcome State Fault Refusal :=
  .next { st with status := .halted }

/-- `HLT` under the default configuration (R59). -/
def execHlt (st : State) : Host.Outcome State Fault Refusal :=
  execHltWith defaultConfig st

/-- `MOV_R_R`: `d <- s` (R60). -/
def execMovRRWith (cfg : Config) (d s : RegId) (st : State) : Host.Outcome State Fault Refusal :=
  moveInto cfg d (.reg s) st

/-- `MOV_R_R` under the default configuration (R60). -/
def execMovRR (d s : RegId) (st : State) : Host.Outcome State Fault Refusal :=
  execMovRRWith defaultConfig d s st

/-- `MOV_R_M`: `d <- memory[HA + m]` (R61). -/
def execMovRMWith (cfg : Config) (d : RegId) (m : Offset) (st : State) : Host.Outcome State Fault Refusal :=
  moveInto cfg d (.mem m) st

/-- `MOV_R_M` under the default configuration (R61). -/
def execMovRM (d : RegId) (m : Offset) (st : State) : Host.Outcome State Fault Refusal :=
  execMovRMWith defaultConfig d m st

/-- `MOV_R_I`: `d <- i` (R62). -/
def execMovRIWith (cfg : Config) (d : RegId) (i : Imm) (st : State) : Host.Outcome State Fault Refusal :=
  moveInto cfg d (.imm i) st

/-- `MOV_R_I` under the default configuration (R62). -/
def execMovRI (d : RegId) (i : Imm) (st : State) : Host.Outcome State Fault Refusal :=
  execMovRIWith defaultConfig d i st

/-- `MOV_M_R`: `memory[HA + m] <- s` (R63). -/
def execMovMRWith (cfg : Config) (m : Offset) (s : RegId) (st : State) : Host.Outcome State Fault Refusal :=
  storeTo cfg m (.reg s) st

/-- `MOV_M_R` under the default configuration (R63). -/
def execMovMR (m : Offset) (s : RegId) (st : State) : Host.Outcome State Fault Refusal :=
  execMovMRWith defaultConfig m s st

/-- `MOV_M_I`: `memory[HA + m] <- i` (R64). -/
def execMovMIWith (cfg : Config) (m : Offset) (i : Imm) (st : State) : Host.Outcome State Fault Refusal :=
  storeTo cfg m (.imm i) st

/-- `MOV_M_I` under the default configuration (R64). -/
def execMovMI (m : Offset) (i : Imm) (st : State) : Host.Outcome State Fault Refusal :=
  execMovMIWith defaultConfig m i st

end Sys2Proof.Machine
end

