-- ==== Sys2Proof/Machine/Dispatch.lean ====
section
/-! DEFINITION. The meaning of every instruction (the opcode table of R44), one arm per constructor. -/

namespace Sys2Proof.Machine

def exec (i : Instr) (s : State) : Host.Outcome State Fault Refusal :=
  match i with
  | .hlt => Sys2Proof.Machine.execHlt s
  | .movRR x y => Sys2Proof.Machine.execMovRR x y s
  | .movRM x m => Sys2Proof.Machine.execMovRM x m s
  | .movRI x n => Sys2Proof.Machine.execMovRI x n s
  | .movMR m x => Sys2Proof.Machine.execMovMR m x s
  | .movMI m n => Sys2Proof.Machine.execMovMI m n s
  | .incR r => Sys2Proof.Machine.execIncR r s
  | .decR r => Sys2Proof.Machine.execDecR r s
  | .addRR x y => Sys2Proof.Machine.execAddRR x y s
  | .addRM x m => Sys2Proof.Machine.execAddRM x m s
  | .addRI x n => Sys2Proof.Machine.execAddRI x n s
  | .subRR x y => Sys2Proof.Machine.execSubRR x y s
  | .subRM x m => Sys2Proof.Machine.execSubRM x m s
  | .subRI x n => Sys2Proof.Machine.execSubRI x n s
  | .andRR x y => Sys2Proof.Machine.execAndRR x y s
  | .andRM x m => Sys2Proof.Machine.execAndRM x m s
  | .andRI x n => Sys2Proof.Machine.execAndRI x n s
  | .orRR x y => Sys2Proof.Machine.execOrRR x y s
  | .orRM x m => Sys2Proof.Machine.execOrRM x m s
  | .orRI x n => Sys2Proof.Machine.execOrRI x n s
  | .xorRR x y => Sys2Proof.Machine.execXorRR x y s
  | .xorRM x m => Sys2Proof.Machine.execXorRM x m s
  | .xorRI x n => Sys2Proof.Machine.execXorRI x n s
  | .notR r => Sys2Proof.Machine.execNotR r s
  | .cmpRR x y => Sys2Proof.Machine.execCmpRR x y s
  | .cmpRM x m => Sys2Proof.Machine.execCmpRM x m s
  | .cmpRI x n => Sys2Proof.Machine.execCmpRI x n s
  | .jmpI a => Sys2Proof.Machine.execJmpI a s
  | .jzI a => Sys2Proof.Machine.execJzI a s
  | .jnzI a => Sys2Proof.Machine.execJnzI a s
  | .jcI a => Sys2Proof.Machine.execJcI a s
  | .jncI a => Sys2Proof.Machine.execJncI a s
  | .jaI a => Sys2Proof.Machine.execJaI a s
  | .jnaI a => Sys2Proof.Machine.execJnaI a s

end Sys2Proof.Machine
end

