-- ==== Sys2Proof/Machine/ExecWith.lean ====
section
/-! DEFINITION. The meaning of every instruction under any configuration (R6). Under the default one it is `exec`. -/

namespace Sys2Proof.Machine

/-- What an instruction does, for every value of the parameters (R6, D1, D2, D4, D8, D17). -/
def execWith (cfg : Config) (i : Instr) (s : State) : Host.Outcome State Fault Refusal :=
  match i with
  | .hlt => execHltWith cfg s
  | .movRR x y => execMovRRWith cfg x y s
  | .movRM x m => execMovRMWith cfg x m s
  | .movRI x n => execMovRIWith cfg x n s
  | .movMR m x => execMovMRWith cfg m x s
  | .movMI m n => execMovMIWith cfg m n s
  | .incR r => execIncRWith cfg r s
  | .decR r => execDecRWith cfg r s
  | .addRR x y => execAddRRWith cfg x y s
  | .addRM x m => execAddRMWith cfg x m s
  | .addRI x n => execAddRIWith cfg x n s
  | .subRR x y => execSubRRWith cfg x y s
  | .subRM x m => execSubRMWith cfg x m s
  | .subRI x n => execSubRIWith cfg x n s
  | .andRR x y => execAndRRWith cfg x y s
  | .andRM x m => execAndRMWith cfg x m s
  | .andRI x n => execAndRIWith cfg x n s
  | .orRR x y => execOrRRWith cfg x y s
  | .orRM x m => execOrRMWith cfg x m s
  | .orRI x n => execOrRIWith cfg x n s
  | .xorRR x y => execXorRRWith cfg x y s
  | .xorRM x m => execXorRMWith cfg x m s
  | .xorRI x n => execXorRIWith cfg x n s
  | .notR r => execNotRWith cfg r s
  | .cmpRR x y => execCmpRRWith cfg x y s
  | .cmpRM x m => execCmpRMWith cfg x m s
  | .cmpRI x n => execCmpRIWith cfg x n s
  | .jmpI a => execJmpIWith cfg a s
  | .jzI a => execJzIWith cfg a s
  | .jnzI a => execJnzIWith cfg a s
  | .jcI a => execJcIWith cfg a s
  | .jncI a => execJncIWith cfg a s
  | .jaI a => execJaIWith cfg a s
  | .jnaI a => execJnaIWith cfg a s

end Sys2Proof.Machine
end

