-- ==== Sys2Proof/Machine/Fetch.lean ====
section
/-! DEFINITION. Fetching an instruction's bytes (R14, R51) and the step around an instruction's meaning (R49, R50). -/

namespace Sys2Proof.Machine

/-- The address of the byte `k` past `IP`: `zext_16(x[IP] + k)`, the sum modulo 256 and not relative to `HA`. It is at
most 255, so always inside memory (R14, R27, R51). -/
def fetchAddress (k : Nat) (s : State) : Nat := (zext16 (s.ip + BitVec.ofNat 8 k)).toNat

/-- The byte fetched `k` past `IP` (R51). -/
def fetchByte (k : Nat) (s : State) : Byte := Memory.read s.mem (fetchAddress k s)

/-- The instruction at `IP`, or the reason there is none. The two bytes after the opcode are read whatever its length:
a read has no side effect (R31), and a form uses only its own bytes (R39; log entry 13). -/
def fetchDecode (cfg : Config) (s : State) : Except DecodeError Instr :=
  decodeWith cfg.opcodeMap (fetchByte 0 s) (fetchByte 1 s) (fetchByte 2 s)

/-- One step request (R49, R50): while the status is not `Running` nothing changes; an unmapped opcode raises its fault
before any operand is used (R45, R100); otherwise the instruction's meaning, which starts from the state at the start
of the step and advances `IP` itself. -/
def stepBy (cfg : Config) (run : Instr → State → Host.Outcome State Fault Refusal) (s : State) :
    Host.Outcome State Fault Refusal :=
  match s.status with
  | .running =>
    match fetchDecode cfg s with
    | .ok i => run i s
    | .error (.unmappedOpcode _) => finish cfg s (.error (.trap .unmappedOpcode))
  | .halted => .next s
  | .faulted _ => .next s

/-- The state with three bytes stored at `IP` and the two addresses after it, modulo 256, and the status `Running`, so
that the next step fetches them (log entry 8). -/
def placeAtFetch (b0 b1 b2 : Byte) (s : State) : State :=
  let m0 := Memory.write s.mem (fetchAddress 0 s) b0
  let m1 := Memory.write m0 (fetchAddress 1 s) b1
  { s with mem := Memory.write m1 (fetchAddress 2 s) b2, status := .running }

end Sys2Proof.Machine
end

