-- ==== Sys2Proof/Machine/Step.lean ====
section
/-! DEFINITION. One step (R49, R50), for any configuration and for the default one. -/

namespace Sys2Proof.Machine

/-- One step request, under any configuration. -/
def stepWith (cfg : Config) (s : State) : Host.Outcome State Fault Refusal :=
  stepBy cfg (execWith cfg) s

/-- One step request, under the default configuration (R6). -/
def step (s : State) : Host.Outcome State Fault Refusal :=
  stepBy defaultConfig exec s

/-- The state with the instruction of bits `w` stored where the next step fetches, and running (log entry 8). -/
def State.withFetchWord (s : State) (nbits w : Nat) : State :=
  placeAtFetch (tableByte nbits w 0) (tableByte nbits w 1) (tableByte nbits w 2) s

end Sys2Proof.Machine
end

