-- ==== Sys2Proof/Machine/Ports.lean ====
section
/-! DEFINITION. The block's ports as transactions (R48, R49), and the boot order (R105, R106, R107). -/

namespace Sys2Proof.Machine

/-- The result of a step (R54); `faulted` carries the kind, as R97 lets it. -/
inductive StepResult where
  | continues
  | halted
  | faulted (kind : FaultKind)
deriving DecidableEq, Repr

/-- The host's side of one transaction (R48): `rst`, the load port, `step_req` and the memory observation address. -/
structure PortIn where
  rst : Bool
  loadWe : Bool
  loadAddr : BitVec 16
  loadData : Byte
  stepReq : Bool
  memObsAddr : BitVec 16
deriving DecidableEq, Repr

/-- The block's side of one transaction (R48): `step_result` while `step_done`, `status`, the observation ports after
the transaction, and the bytes the transaction put on the `diag` port. -/
structure PortOut where
  stepResult : Option StepResult
  status : RunStatus
  regObs : List Byte
  memObsData : Byte
  diag : List DiagByte
deriving DecidableEq, Repr

/-- The result that goes with the status a step leaves (R54); asked again after the end it is the same (R49). -/
def resultOf : RunStatus → StepResult
  | .running => .continues
  | .halted => .halted
  | .faulted kind => .faulted kind

/-- What `rst` does: the registers, the run status and the diagnostic stream take their reset values, and memory is not
cleared (R48, R105, R107, D21). -/
def applyRst (s : State) : State := { State.reset with mem := s.mem }

/-- One write through the load port (R48). -/
def loadByte (addr : BitVec 16) (v : Byte) (s : State) : State :=
  { s with mem := Memory.write s.mem addr.toNat v }

/-- One transaction: under `rst` no step runs and the load port is honoured; otherwise a step runs if it is requested
(R48, R49; log entry 12). -/
def transact (p : PortIn) (s : State) : Host.Outcome State Fault Refusal :=
  if p.rst then .next (if p.loadWe then loadByte p.loadAddr p.loadData (applyRst s) else applyRst s)
  else if p.stepReq then step s
  else .next s

/-- The outputs of a transaction that took state `s` to state `t` (R48). Register slots are shown in the order of
R11. -/
def portOut (p : PortIn) (s t : State) : PortOut where
  stepResult := if p.stepReq && !p.rst then some (resultOf t.status) else none
  status := t.status
  regObs := Reg.all.map t.readReg
  memObsData := Memory.read t.mem p.memObsAddr.toNat
  diag := if p.rst then [] else t.diag.drop s.diag.length

/-- Transactions one after another. -/
def drive : List PortIn → State → Host.Outcome State Fault Refusal
  | [], s => .next s
  | p :: rest, s =>
    match transact p s with
    | .next t => drive rest t
    | .fault r => .fault r
    | .refused r => .refused r

/-- `rst` asserted and nothing else. -/
def rstInput : PortIn := ⟨true, false, 0, 0, false, 0⟩

/-- A write of one byte through the load port, under `rst`. -/
def loadInput (addr : Nat) (v : Byte) : PortIn := ⟨true, true, BitVec.ofNat 16 addr, v, false, 0⟩

/-- A step request. -/
def stepInput : PortIn := ⟨false, false, 0, 0, true, 0⟩

/-- The host's inputs before the first step (R107 steps 1 and 2): `rst`, then all 65536 bytes, the image first and then
zeros. -/
def bootInputs (image : List Byte) : List PortIn :=
  rstInput :: (List.range memSize).map fun k => loadInput k (image.getD k 0)

/-- A launch: the boot order, from whatever state the block was in. An image longer than memory is refused
(R106, 93 U6; log entry 14). -/
def boot (image : List Byte) (s : State) : Host.Outcome State Fault Refusal :=
  if image.length ≤ memSize then drive (bootInputs image) s else .refused (.imageTooLarge image.length)

end Sys2Proof.Machine
end

