-- ==== Sys2Proof/Safety.lean ====
section
/-! DEFINITION. What counts as a sound state, and what an instruction may change, in the terms claims use. -/

namespace Sys2Proof

/-- The register id in the destination position that an instruction writes, if it has one (R39, R65). -/
def Instr.destination : Instr → Option RegId
  | .movRR d _ | .movRM d _ | .movRI d _
  | .addRR d _ | .addRM d _ | .addRI d _ | .subRR d _ | .subRM d _ | .subRI d _
  | .andRR d _ | .andRM d _ | .andRI d _ | .orRR d _ | .orRM d _ | .orRI d _
  | .xorRR d _ | .xorRM d _ | .xorRI d _ | .incR d | .decR d | .notR d => some d
  | .hlt | .movMR _ _ | .movMI _ _ | .cmpRR _ _ | .cmpRM _ _ | .cmpRI _ _
  | .jmpI _ | .jzI _ | .jnzI _ | .jcI _ | .jncI _ | .jaI _ | .jnaI _ => none

/-- Whether an instruction calls `operate`: every INC, DEC, ADD, SUB, AND, OR, XOR and CMP (R16). -/
def Instr.callsOperate : Instr → Bool
  | .incR _ | .decR _
  | .addRR _ _ | .addRM _ _ | .addRI _ _ | .subRR _ _ | .subRM _ _ | .subRI _ _
  | .andRR _ _ | .andRM _ _ | .andRI _ _ | .orRR _ _ | .orRM _ _ | .orRI _ _
  | .xorRR _ _ | .xorRM _ _ | .xorRI _ _ | .cmpRR _ _ | .cmpRM _ _ | .cmpRI _ _ => true
  | .hlt | .movRR _ _ | .movRM _ _ | .movRI _ _ | .movMR _ _ | .movMI _ _ | .notR _
  | .jmpI _ | .jzI _ | .jnzI _ | .jcI _ | .jncI _ | .jaI _ | .jnaI _ => false

end Sys2Proof

namespace Sys2Proof.Machine

/-- Memory is in its one canonical form, every listed address inside the 65536 bytes (R23, R26). -/
def MemoryCanonical (s : State) : Prop := Memory.wf s.mem = true

/-- What the fault reporter leaves (R18, R98, R99, R105): a faulted state has `ERR` set and has emitted the stream of
its fault kind over its memory; any other state has emitted nothing since reset. -/
def ReportConsistent (cfg : Config) (s : State) : Prop :=
  match s.status with
  | .faulted kind => s.flag cfg .err = true ∧ s.diag = diagStream cfg kind s.mem
  | .running | .halted => s.diag = []

end Sys2Proof.Machine
end

