-- ==== Sys2Proof/Certificates/Slice0/Obligations.lean ====
section
/-! DEFINITION. The statements for the provers. Instruction statements are about `exec` under the default configuration
(R6, log entries 1 to 4), whose register ids are `defaultRegId` and whose flags are bits 0 (`Z`), 1 (`C`) and 2 (`ERR`)
of `FL`; they hold for every slot as operand, `IP` and `FL` among them, and say what happens there. -/

namespace Sys2Proof.Spec

open Sys2Proof.Machine

/-! ### The terms the statements use -/

/-- What a register operand reads: all `len` bytes of the instruction are fetched, so `IP` reads past them (R51, R52). -/
def operand (s : State) (len : Byte) (r : Reg) : Byte := if r = .ip then s.ip + len else s.readReg r

/-- Every byte of memory, the run status and the emitted stream are unchanged. -/
def KeepsRest (s t : State) : Prop :=
  (∀ x, Memory.read t.mem x = Memory.read s.mem x) ∧ t.status = s.status ∧ t.diag = s.diag

/-- `Z` and `C` become `z` and `c`; every other bit of `FL` is unchanged. -/
def FlagsBecome (s t : State) (z c : Prop) : Prop :=
  (t.fl.getLsbD 0 = true ↔ z) ∧ (t.fl.getLsbD 1 = true ↔ c) ∧ ∀ k, 2 ≤ k → t.fl.getLsbD k = s.fl.getLsbD k

/-- `rd` holds `v`; `IP` is past the `len` bytes unless it is `rd`; nothing else changes, no flag either. -/
def RegisterWritten (s t : State) (len : Byte) (rd : Reg) (v : Byte) : Prop :=
  t.readReg rd = v ∧ (rd ≠ .ip → t.ip = s.ip + len) ∧
  (∀ r, r ≠ rd → r ≠ .ip → t.readReg r = s.readReg r) ∧ KeepsRest s t

/-- `rd` holds `v`, and unless it is `FL` the flags become `z` and `c`; `IP` is past the `len` bytes unless it is `rd`;
nothing else changes. -/
def ResultWritten (s t : State) (len : Byte) (rd : Reg) (v : Byte) (z c : Prop) : Prop :=
  t.readReg rd = v ∧ (rd ≠ .fl → FlagsBecome s t z c) ∧ (rd ≠ .ip → t.ip = s.ip + len) ∧
  (∀ r, r ≠ rd → r ≠ .ip → r ≠ .fl → t.readReg r = s.readReg r) ∧ KeepsRest s t

/-- The flags become `z` and `c` and `IP` is past the `len` bytes; nothing else changes. -/
def OnlyFlagsWritten (s t : State) (len : Byte) (z c : Prop) : Prop :=
  FlagsBecome s t z c ∧ t.ip = s.ip + len ∧ (∀ r, r ≠ .ip → r ≠ .fl → t.readReg r = s.readReg r) ∧ KeepsRest s t

/-- `IP` becomes `v`; nothing else changes. -/
def OnlyIpBecomes (s t : State) (v : Byte) : Prop :=
  t.ip = v ∧ (∀ r, r ≠ .ip → t.readReg r = s.readReg r) ∧ KeepsRest s t

/-- What a fault leaves of the state `s` at the start of its step (R53, R98): `ERR` set, the status `Faulted` with its
kind, the dump window and the message emitted, everything else as it was, `IP` too. -/
def FaultTaken (kind : FaultKind) (s t : State) : Prop :=
  t.status = .faulted kind ∧
  (∀ k, t.fl.getLsbD k = if k = 2 then true else s.fl.getLsbD k) ∧
  (∀ r, r ≠ .fl → t.readReg r = s.readReg r) ∧
  (∀ x, Memory.read t.mem x = Memory.read s.mem x) ∧
  t.diag.map DiagByte.data = s.diag.map DiagByte.data ++
    ((List.range 4096).map fun k => Memory.read s.mem (0xF000 + k)) ++ Config.openFaultMessage kind

/-- The same under any configuration: the marked stream is emitted and the bit of `ERR` is the map's. -/
def FaultReported (cfg : Config) (kind : FaultKind) (s t : State) : Prop :=
  t.status = .faulted kind ∧
  (∀ k, t.fl.getLsbD k = if k = (cfg.flagBits.bitOf .err).val then true else s.fl.getLsbD k) ∧
  (∀ r, r ≠ .fl → t.readReg r = s.readReg r) ∧ t.mem = s.mem ∧ t.diag = s.diag ++ diagStream cfg kind s.mem

/-- The outcome is a next state of which `P` holds. -/
def Next (o : Host.Outcome State Fault Refusal) (P : State → Prop) : Prop := ∃ t, o = .next t ∧ P t

/-- The rule of one operation in its three forms register, memory and immediate: the encodings; for every destination
slot and every source, the effect, which is a relation of the state before, the state after, the destination, its value
and the source's value; and the fault when a register id names no slot. -/
def ThreeForms (opRR opRM opRI : Byte) (rr rm ri : Byte → Byte → Instr)
    (Effect : State → State → Reg → Byte → Byte → Prop) : Prop :=
  (∀ x y, encode (rr x y) = [opRR, x, y] ∧ encode (rm x y) = [opRM, x, y] ∧ encode (ri x y) = [opRI, x, y]) ∧
  (∀ s rd rs, Next (exec (rr (defaultRegId rd) (defaultRegId rs)) s) fun t =>
    Effect s t rd (operand s 3 rd) (operand s 3 rs)) ∧
  (∀ s rd m, Next (exec (rm (defaultRegId rd) m) s) fun t =>
    Effect s t rd (operand s 3 rd) (Memory.read s.mem (s.ha.toNat + m.toNat))) ∧
  (∀ s rd i, Next (exec (ri (defaultRegId rd) i) s) fun t => Effect s t rd (operand s 3 rd) i) ∧
  (∀ s d y, 8 ≤ d.toNat →
    Next (exec (rr d y) s) (FaultTaken .invalidRegisterId s) ∧
    Next (exec (rm d y) s) (FaultTaken .invalidRegisterId s) ∧
    Next (exec (ri d y) s) (FaultTaken .invalidRegisterId s)) ∧
  (∀ s d y, 8 ≤ y.toNat → Next (exec (rr d y) s) (FaultTaken .invalidRegisterId s))

/-- Each of the three forms answers a next state of which `P` holds, for every slot in the first position and every
second operand; `P` is told the state before, that slot, its value and the second operand's value. -/
def InThreeForms (rr rm ri : Byte → Byte → Instr) (P : State → Reg → Byte → Byte → State → Prop) : Prop :=
  (∀ s rd rs, Next (exec (rr (defaultRegId rd) (defaultRegId rs)) s) (P s rd (operand s 3 rd) (operand s 3 rs))) ∧
  (∀ s rd m, Next (exec (rm (defaultRegId rd) m) s)
    (P s rd (operand s 3 rd) (Memory.read s.mem (s.ha.toNat + m.toNat)))) ∧
  (∀ s rd i, Next (exec (ri (defaultRegId rd) i) s) (P s rd (operand s 3 rd) i))

/-- The rule of a one-register operation: the encoding, the effect for every slot, and the fault. -/
def OneRegister (op : Byte) (mk : Byte → Instr) (Effect : State → State → Reg → Byte → Prop) : Prop :=
  (∀ r, encode (mk r) = [op, r]) ∧
  (∀ s rr, Next (exec (mk (defaultRegId rr)) s) fun t => Effect s t rr (operand s 2 rr)) ∧
  (∀ s r, 8 ≤ r.toNat → Next (exec (mk r) s) (FaultTaken .invalidRegisterId s))

/-- The rule of a jump: the encoding, and from every state `IP` becomes the operand if the jump is taken and is past
the two bytes if not; nothing else changes and no fault is raised. -/
def JumpRule (op : Byte) (mk : Byte → Instr) (taken : State → Prop) : Prop :=
  (∀ a, encode (mk a) = [op, a]) ∧
  ∀ s a, Next (exec (mk a) s) fun t =>
    (taken s → OnlyIpBecomes s t a) ∧ (¬ taken s → OnlyIpBecomes s t (s.ip + 2))

/-- The last column of R88's table, in a state `t` left by comparing `x` with `y`: from `t` each conditional jump goes to
`a` exactly when its unsigned comparison holds, and to `past` if it does not. -/
def JumpsCompare (x y a past : Byte) (t : State) : Prop :=
  Next (exec (.jzI a) t) (fun u => u.ip = if x = y then a else past) ∧
  Next (exec (.jnzI a) t) (fun u => u.ip = if x ≠ y then a else past) ∧
  Next (exec (.jcI a) t) (fun u => u.ip = if x < y then a else past) ∧
  Next (exec (.jncI a) t) (fun u => u.ip = if ¬ x < y then a else past) ∧
  Next (exec (.jaI a) t) (fun u => u.ip = if y < x then a else past) ∧
  Next (exec (.jnaI a) t) (fun u => u.ip = if ¬ y < x then a else past)

/-- `FL.Z`. -/
def Zset (s : State) : Prop := s.fl.getLsbD 0 = true

/-- `FL.C`. -/
def Cset (s : State) : Prop := s.fl.getLsbD 1 = true

/-- What `rst` leaves of everything but memory (R48, R105): `SP` is 0xFF and every other register 0, the status is
`Running` and nothing is emitted. -/
def AfterRst (t : State) : Prop :=
  (∀ r, t.readReg r = if r = .sp then 0xFF else 0x00) ∧ t.status = .running ∧ t.diag = []

/-- What the decoder reads at `IP`: the byte there and the two after it, addresses modulo 256 (R14, R51). -/
def fetched (s : State) : Except DecodeError Instr :=
  decode (Memory.read s.mem s.ip.toNat) (Memory.read s.mem ((s.ip.toNat + 1) % 256))
    (Memory.read s.mem ((s.ip.toNat + 2) % 256))

end Sys2Proof.Spec

open Sys2Proof Sys2Proof.Machine Sys2Proof.Spec

/-! ### The instructions -/

/-- R59: `HLT` is the byte 0x00, makes the status Halted, and changes nothing else, `IP` included. -/
def Obligations.HltHaltsInPlace : Prop :=
  encode .hlt = [0x00] ∧
  ∀ s, Next (exec .hlt s) fun t =>
    t.status = .halted ∧ (∀ r, t.readReg r = s.readReg r) ∧
    (∀ x, Memory.read t.mem x = Memory.read s.mem x) ∧ t.diag = s.diag

/-- R60, R61, R62: `MOV` into a register copies the source and changes no flag, unless the destination is `FL`, which
then holds the source whole; a destination `IP` holds it as the next fetch address. -/
def Obligations.MovIntoRegister : Prop :=
  ThreeForms 0x01 0x02 0x03 .movRR .movRM .movRI fun s t rd _ v => RegisterWritten s t 3 rd v

/-- R63, R64: `MOV` into memory stores one byte at `HA + m`, advances `IP` by 3 and changes nothing else; a source id
that names no slot faults. The byte stored is read back in a canonical memory. -/
def Obligations.MovIntoMemory : Prop :=
  (∀ m y, encode (.movMR m y) = [0x04, m, y] ∧ encode (.movMI m y) = [0x05, m, y]) ∧
  (∀ s m, effectiveAddress s m = s.ha.toNat + m.toNat) ∧
  (∀ s m rs, Next (exec (.movMR m (defaultRegId rs)) s) fun t =>
    (MemoryCanonical s → Memory.read t.mem (effectiveAddress s m) = operand s 3 rs) ∧
    (∀ x, x ≠ effectiveAddress s m → Memory.read t.mem x = Memory.read s.mem x) ∧
    t.ip = s.ip + 3 ∧ (∀ r, r ≠ .ip → t.readReg r = s.readReg r) ∧ t.status = s.status ∧ t.diag = s.diag) ∧
  (∀ s m i, Next (exec (.movMI m i) s) fun t =>
    (MemoryCanonical s → Memory.read t.mem (effectiveAddress s m) = i) ∧
    (∀ x, x ≠ effectiveAddress s m → Memory.read t.mem x = Memory.read s.mem x) ∧
    t.ip = s.ip + 3 ∧ (∀ r, r ≠ .ip → t.readReg r = s.readReg r) ∧ t.status = s.status ∧ t.diag = s.diag) ∧
  (∀ s m y, 8 ≤ y.toNat → Next (exec (.movMR m y) s) (FaultTaken .invalidRegisterId s))

/-- R66, R67: `INC` never sets `Z` and sets `C` iff the register was 255; `DEC` sets `Z` iff it was 1 and `C` iff it
was 0. -/
def Obligations.IncAndDec : Prop :=
  OneRegister 0x06 .incR (fun s t rr a => ResultWritten s t 2 rr (a + 1) False (a = 255)) ∧
  OneRegister 0x07 .decR (fun s t rr a => ResultWritten s t 2 rr (a - 1) (a = 1) (a = 0))

/-- R68, R69, R70: `ADD` writes the sum modulo 256; `Z` iff both operands are 0, `C` iff the sum is above 255. -/
def Obligations.AddInThreeForms : Prop :=
  ThreeForms 0x08 0x09 0x0A .addRR .addRM .addRI fun s t rd a b =>
    ResultWritten s t 3 rd (a + b) (a = 0 ∧ b = 0) (255 < a.toNat + b.toNat)

/-- R71, R72, R73: `SUB` writes the difference modulo 256; `Z` iff the operands are equal, `C` iff the first is below
the second, unsigned. -/
def Obligations.SubInThreeForms : Prop :=
  ThreeForms 0x0B 0x0C 0x0D .subRR .subRM .subRI fun s t rd a b =>
    ResultWritten s t 3 rd (a - b) (a = b) (a.toNat < b.toNat)

/-- R74, R75, R76: `AND` sets `Z` iff the result is 0 and always clears `C`. -/
def Obligations.AndInThreeForms : Prop :=
  ThreeForms 0x0E 0x0F 0x10 .andRR .andRM .andRI fun s t rd a b =>
    ResultWritten s t 3 rd (a &&& b) (a &&& b = 0) False

/-- R77, R78, R79: `OR` sets `Z` iff both operands are 0 and always clears `C`. -/
def Obligations.OrInThreeForms : Prop :=
  ThreeForms 0x11 0x12 0x13 .orRR .orRM .orRI fun s t rd a b =>
    ResultWritten s t 3 rd (a ||| b) (a = 0 ∧ b = 0) False

/-- R80, R81, R82: `XOR` sets `Z` iff the operands are equal and always clears `C`. -/
def Obligations.XorInThreeForms : Prop :=
  ThreeForms 0x14 0x15 0x16 .xorRR .xorRM .xorRI fun s t rd a b =>
    ResultWritten s t 3 rd (a ^^^ b) (a = b) False

/-- R83: `NOT` writes 255 minus the register and changes no flag, unless the register is `FL`, all of whose bits it
complements. That it leaves the flags is the spec's own decision D7 (log entry 15). -/
def Obligations.NotComplementsWithoutFlags : Prop :=
  OneRegister 0x17 .notR fun s t rr a =>
    RegisterWritten s t 2 rr (BitVec.ofNat 8 (255 - a.toNat)) ∧
    (rr = .fl → ∀ k, k < 8 → t.fl.getLsbD k = !s.fl.getLsbD k)

/-- R84, R85, R86: `CMP` writes no register but the flags of `FL`: `Z` iff the operands are equal, `C` iff the first is
below the second, unsigned. -/
def Obligations.CmpInThreeForms : Prop :=
  ThreeForms 0x18 0x19 0x1A .cmpRR .cmpRM .cmpRI fun s t _ a b =>
    OnlyFlagsWritten s t 3 (a = b) (a.toNat < b.toNat)

/-- R89: `JMP_I a` sets `IP` to `a` and changes nothing else. -/
def Obligations.JmpGoesToItsOperand : Prop := JumpRule 0x1B .jmpI fun _ => True

/-- R90 to R95: the six conditional jumps, each taken on its condition on `Z` and `C` and otherwise going on past its
two bytes. -/
def Obligations.ConditionalJumps : Prop :=
  JumpRule 0x1C .jzI Zset ∧ JumpRule 0x1D .jnzI (fun s => ¬ Zset s) ∧
  JumpRule 0x1E .jcI Cset ∧ JumpRule 0x1F .jncI (fun s => ¬ Cset s) ∧
  JumpRule 0x20 .jaI (fun s => ¬ Zset s ∧ ¬ Cset s) ∧ JumpRule 0x21 .jnaI (fun s => Zset s ∨ Cset s)

/-- R88: wherever the flags stand in `FL` and whatever last wrote them, each jump whose target the bound accepts goes to
its operand exactly on its condition, and one not taken is past its two bytes; under the default configuration, after
`CMP` in each of its three forms each goes to its operand exactly when the unsigned comparison in its row of the table
holds, and after an `ADD` in each of its three forms whose sum is exactly 256 `JZ_I` is not taken although the result
byte is 0. That the default bound accepts every target is R87's own derivation and the spec's decision D8 (log
entry 4). -/
def Obligations.JumpsFollowTheConditionTable : Prop :=
  (∀ cfg s a, cfg.jumpBound (BitVec.toNat a) = true →
    let z := State.flag cfg s .z
    let c := State.flag cfg s .c
    let goesIf := fun (on : Bool) (u : State) => u.ip = if on then a else s.ip + 2
    Next (execWith cfg (.jmpI a) s) (goesIf true) ∧
    Next (execWith cfg (.jzI a) s) (goesIf z) ∧ Next (execWith cfg (.jnzI a) s) (goesIf (!z)) ∧
    Next (execWith cfg (.jcI a) s) (goesIf c) ∧ Next (execWith cfg (.jncI a) s) (goesIf (!c)) ∧
    Next (execWith cfg (.jaI a) s) (goesIf (!z && !c)) ∧ Next (execWith cfg (.jnaI a) s) (goesIf (z || c))) ∧
  (∀ a, defaultConfig.jumpBound (BitVec.toNat (w := 8) a) = true) ∧
  InThreeForms .cmpRR .cmpRM .cmpRI (fun s _ x y t => ∀ a, JumpsCompare x y a (s.ip + 5) t) ∧
  InThreeForms .addRR .addRM .addRI (fun s rd x y t => rd ≠ .ip → rd ≠ .fl → x.toNat + y.toNat = 256 →
    t.readReg rd = 0 ∧ ∀ a, Next (exec (.jzI a) t) fun u => u.ip = s.ip + 5)

/-! ### Shared rules of the ALU and the addressing resolver -/

/-- R55: `operate`, wherever the flags stand in `FL`: `Z` iff the unclamped result is 0, `C` iff it is outside 0 to 255,
the byte answered is the result modulo 256, no other bit of `FL` and nothing else changes; the result 256 answers 0
with `Z` clear and `C` set. -/
def Obligations.OperateSetsZAndCFromTheUnclampedResult : Prop :=
  ∀ (cfg : Config) (x : Int) (s : State),
    ((operate cfg x s).1.toNat : Int) = x % 256 ∧
    ((operate cfg x s).2.flag cfg .z = true ↔ x = 0) ∧
    ((operate cfg x s).2.flag cfg .c = true ↔ x < 0 ∨ 255 < x) ∧
    (∀ k, k ≠ (cfg.flagBits.bitOf .z).val → k ≠ (cfg.flagBits.bitOf .c).val →
      (operate cfg x s).2.fl.getLsbD k = s.fl.getLsbD k) ∧
    (∀ r, r ≠ .fl → (operate cfg x s).2.readReg r = s.readReg r) ∧
    KeepsRest s (operate cfg x s).2 ∧
    (operate cfg 256 s).1 = 0 ∧ (operate cfg 256 s).2.flag cfg .z = false ∧ (operate cfg 256 s).2.flag cfg .c = true

/-- R58: the destination is written after the flags, so a destination `FL` ends as the result byte, and for any other
destination `FL` is what `operate` left (the spec's own derivation from R13 and R55). -/
def Obligations.DestinationIsWrittenAfterTheFlags : Prop :=
  ∀ (cfg : Config) (rd : Reg) (x : Int) (s : State),
    (operateInto cfg rd x s).readReg rd = (operate cfg x s).1 ∧
    (rd ≠ .fl → (operateInto cfg rd x s).fl = (operate cfg x s).2.fl)

/-- R57: the effective address is the integer sum of `HA` and the offset, at most 510; a memory source is read and a
memory destination written there, inside memory. That the sum is not reduced modulo 256 is the spec's own decision D10
(log entry 15). -/
def Obligations.EffectiveAddressIsAPlainSum : Prop :=
  ∀ (s : State) (m : Byte) (v : Byte),
    effectiveAddress s m = s.ha.toNat + m.toNat ∧ effectiveAddress s m ≤ 510 ∧
    memRead (effectiveAddress s m) s = .ok (Memory.read s.mem (s.ha.toNat + m.toNat)) ∧
    memWrite (effectiveAddress s m) v s = .ok { s with mem := Memory.write s.mem (s.ha.toNat + m.toNat) v }

/-! ### Faults -/

/-- R53, R98, under every configuration: whatever the pseudocode did before it raised the fault, the step ends in the
state of its start with `ERR` set, the stream emitted and the status Faulted; and so does every step that faults. That
every kind is precise is the spec's own decision D11 (log entry 15). -/
def Obligations.FaultEntryRestoresAndSetsErr : Prop :=
  (∀ (cfg : Config) (kind : FaultKind) (s : State),
    Next (finish cfg s (.error (.trap kind))) (FaultReported cfg kind s)) ∧
  ∀ (cfg : Config) (kind : FaultKind) (s t : State), s.status = .running → stepWith cfg s = .next t →
    t.status = .faulted kind → FaultReported cfg kind s t

/-- R99: the stream is the 4096 bytes at 0xF000 to 0xFFFF ascending, then the message; `diag_last` marks its final byte
only (for an empty message log entry 16); and a step emits nothing unless it faults, when it emits one such stream. -/
def Obligations.DiagnosticStreamIsWindowThenMessage : Prop :=
  (∀ (cfg : Config) (kind : FaultKind) (m : Memory),
    (diagStream cfg kind m).map DiagByte.data =
      ((List.range 4096).map fun k => Memory.read m (0xF000 + k)) ++ cfg.faultMessage kind ∧
    ∀ k e, (diagStream cfg kind m)[k]? = some e → e.last = decide (k + 1 = (diagStream cfg kind m).length)) ∧
  ∀ (cfg : Config) (s t : State), stepWith cfg s = .next t →
    (t.diag = s.diag ∧ t.status = s.status) ∨ (t.diag = s.diag ∧ t.status = .halted) ∨
    ∃ kind, s.status = .running ∧ t.status = .faulted kind ∧ t.diag = s.diag ++ diagStream cfg kind s.mem

/-- R87, R97 under a configuration whose bound rejects the target (the default rejects none: JmpGoesToItsOperand and
ConditionalJumps): a jump that is taken raises InvalidControlTarget and leaves `IP`; one that is not goes on. -/
def Obligations.RejectedTargetFaultsOnlyWhenTaken : Prop :=
  ∀ (cfg : Config) (a : Byte) (s : State), cfg.jumpBound a.toNat = false →
    let faults := fun (t : State) => t.status = .faulted .invalidControlTarget ∧ t.ip = s.ip ∧ t.mem = s.mem ∧
      t.flag cfg .err = true
    let goesOn := fun (t : State) => OnlyIpBecomes s t (s.ip + 2)
    Next (execWith cfg (.jmpI a) s) faults ∧
    Next (execWith cfg (.jzI a) s) (if s.flag cfg .z then faults else goesOn) ∧
    Next (execWith cfg (.jnzI a) s) (if s.flag cfg .z then goesOn else faults) ∧
    Next (execWith cfg (.jcI a) s) (if s.flag cfg .c then faults else goesOn) ∧
    Next (execWith cfg (.jncI a) s) (if s.flag cfg .c then goesOn else faults) ∧
    Next (execWith cfg (.jaI a) s) (if s.flag cfg .z ∨ s.flag cfg .c then goesOn else faults) ∧
    Next (execWith cfg (.jnaI a) s) (if s.flag cfg .z ∨ s.flag cfg .c then faults else goesOn)

/-! ### The decoder -/

/-- Words written out from R44's table and R40's order decode to the instructions they stand for, one of each form. The
byte values are the spec's default map, its decision D1 (log entry 1), and the order of the M forms is its decision D5
(log entry 15). -/
def Obligations.WordsOfTheTableDecode : Prop :=
  decode 0x00 0x11 0x22 = .ok .hlt ∧
  decode 0x06 0x03 0xFF = .ok (.incR 0x03) ∧
  decode 0x1D 0x03 0xFF = .ok (.jnzI 0x03) ∧
  decode 0x0B 0x00 0x01 = .ok (.subRR 0x00 0x01) ∧
  decode 0x02 0x07 0xFF = .ok (.movRM 0x07 0xFF) ∧
  decode 0x1A 0x00 0x0A = .ok (.cmpRI 0x00 0x0A) ∧
  decode 0x04 0x10 0x00 = .ok (.movMR 0x10 0x00) ∧
  decode 0x05 0xFF 0x99 = .ok (.movMI 0xFF 0x99) ∧
  decode 0x22 0x00 0x00 = .error (.unmappedOpcode 0x22)

/-- R38 to R46 under every injective `OPCODE_MAP`: decoding the bytes of an instruction gives it back, whatever bytes
follow them and whatever its operand bytes are. -/
def Obligations.DecodeOfEncodeUnderEveryMap : Prop :=
  ∀ (m : OpcodeMap) (i : Instr) (after : Nat → Byte),
    let byte := fun k => (encodeWith m i).getD k (after k)
    decodeWith m (byte 0) (byte 1) (byte 2) = .ok i

/-- The other direction: an instruction that the decoder reads encodes to the bytes it was read from, up to its
length. -/
def Obligations.EncodeOfDecodeUnderEveryMap : Prop :=
  ∀ (m : OpcodeMap) (b0 b1 b2 : Byte) (i : Instr), decodeWith m b0 b1 b2 = .ok i →
    encodeWith m i = [b0, b1, b2].take i.length

/-- R45: a byte outside the map's image selects no instruction, under the default map the bytes from 0x22; executing it
raises UnmappedOpcode, `IP` not advanced. The fault is the policy of the spec's own decision D6 (log entry 15). -/
def Obligations.UnmappedOpcodesFault : Prop :=
  (∀ (m : OpcodeMap) (b0 b1 b2 : Byte),
    (∀ i, decodeWith m b0 b1 b2 ≠ .ok i) ↔ ∀ o, m.byteOf o ≠ b0) ∧
  (∀ b0 b1 b2 : Byte, (∀ i, decode b0 b1 b2 ≠ .ok i) ↔ 0x22 ≤ b0.toNat) ∧
  (∀ s, s.status = .running → 0x22 ≤ (Memory.read s.mem s.ip.toNat).toNat →
    Next (step s) (FaultTaken .unmappedOpcode s)) ∧
  (∀ cfg s, s.status = .running → (∀ o, cfg.opcodeMap.byteOf o ≠ Memory.read s.mem s.ip.toNat) →
    Next (stepWith cfg s) (FaultReported cfg .unmappedOpcode s))

/-! ### The step -/

/-- A step of a running machine is `exec` of the instruction its bytes at `IP` decode to; nothing is added around it
(`exec` itself advances `IP`). -/
def Obligations.StepRunsTheDecodedInstruction : Prop :=
  ∀ s i, s.status = .running → fetched s = .ok i → step s = exec i s

/-- The instruction of a table word, placed by `withFetchWord`, is what the very next step runs (the model's convention,
log entry 8). -/
def Obligations.PlacedWordIsWhatTheNextStepRuns : Prop :=
  ∀ (s : State) (nbits w : Nat) (i : Instr), MemoryCanonical s → decodeTableWord nbits w = some i →
    step (s.withFetchWord nbits w) = exec i (s.withFetchWord nbits w)

/-- R49: without a request nothing changes; after the end a request changes nothing, emits nothing and repeats the
result that ended the run; only reset makes the status Running again. The latch is the spec's own decision D12
(log entry 15). -/
def Obligations.EndedRunsStayEnded : Prop :=
  (∀ p s, p.rst = false → p.stepReq = false → transact p s = .next s) ∧
  (∀ p s, p.rst = false → s.status ≠ .running →
    transact p s = .next s ∧
    (p.stepReq = true → (portOut p s s).stepResult = some (resultOf s.status) ∧ (portOut p s s).diag = [])) ∧
  (∀ p s, p.rst = true → Next (transact p s) fun t => t.status = .running)

/-- R54, R97: which of its results a step of a running machine has is decided by the fetched bytes alone: Halted iff
they are `HLT`, the two faults iff the opcode is unmapped or a register id names no slot, and otherwise Continue. -/
def Obligations.StepResultIsDecidedByTheInstruction : Prop :=
  ∀ s, s.status = .running → Next (step s) fun t =>
    (t.status = .halted ↔ fetched s = .ok .hlt) ∧
    (t.status = .faulted .unmappedOpcode ↔ ∀ i, fetched s ≠ .ok i) ∧
    (t.status = .faulted .invalidRegisterId ↔ ∃ i, fetched s = .ok i ∧ i.wf = false) ∧
    t.status ≠ .faulted .invalidControlTarget ∧
    (t.status = .running ↔ ∃ i, fetched s = .ok i ∧ i.wf = true ∧ i ≠ .hlt)

/-- R28: no address the machine forms is past 65535, so no step stops the model, from any state and under any
configuration. -/
def Obligations.EveryStepAnswersANextState : Prop :=
  (∀ s, ∃ t, step s = .next t) ∧ ∀ cfg s, ∃ t, stepWith cfg s = .next t

/-- R54: a jump to its own address never ends: after any number of step requests the machine is where it was, still
running. -/
def Obligations.JumpToItselfNeverEnds : Prop :=
  ∀ s, s.status = .running → fetched s = .ok (.jmpI s.ip) →
    ∀ n, drive (List.replicate n stepInput) s = .next s

/-! ### Invariants -/

/-- Every step keeps memory in its canonical form inside the 65536 bytes (R23, R26; the form is the model's own, log
entry 8). -/
def Obligations.StepKeepsMemoryCanonical : Prop :=
  (∀ s t, MemoryCanonical s → step s = .next t → MemoryCanonical t) ∧
  ∀ cfg s t, MemoryCanonical s → stepWith cfg s = .next t → MemoryCanonical t

/-- Memory is canonical at reset: the form, and that reset memory lists nothing, are the model's own (log entry 8). -/
def Obligations.ResetMemoryIsCanonical : Prop := MemoryCanonical State.reset

/-- R18, R98, R99: every step keeps it true that a faulted machine has `ERR` set and has emitted exactly the stream of
its fault over its memory, and that any other has emitted nothing since reset. That the state keeps
the stream is the model's choice (log entry 7). -/
def Obligations.StepKeepsTheFaultReportConsistent : Prop :=
  (∀ s t, ReportConsistent defaultConfig s → step s = .next t → ReportConsistent defaultConfig t) ∧
  ∀ cfg s t, ReportConsistent cfg s → stepWith cfg s = .next t → ReportConsistent cfg t

/-- The fault report is consistent at reset. -/
def Obligations.ResetFaultReportIsConsistent : Prop := ∀ cfg, ReportConsistent cfg State.reset

/-! ### Rules of the whole machine -/

/-- R13, R21, R22: no step writes a slot other than `IP` and `FL` unless the instruction names it as its destination. -/
def Obligations.RegistersChangeOnlyAsDestinations : Prop :=
  ∀ s t r, step s = .next t → r ≠ .ip → r ≠ .fl → t.readReg r ≠ s.readReg r →
    ∃ i, fetched s = .ok i ∧ i.destination = some (defaultRegId r)

/-- R21: a slot other than `IP`, `FL` and `HA` that an instruction does not name is neither read nor written by it:
writing the slot before is the same as writing it after. `SP` is such a slot, so nothing uses it implicitly. -/
def Obligations.UnnamedRegistersAreNotUsed : Prop :=
  ∀ i s t r v, r ≠ .ip → r ≠ .fl → r ≠ .ha → defaultRegId r ∉ i.regIds → exec i s = .next t →
    exec i (s.writeReg r v) = .next (t.writeReg r v)

/-- R16 to R19: `Z` and `C` change only by an instruction that calls `operate`, `ERR` only by a fault, bits 3 to 7 by
neither, unless the instruction's destination is `FL`. -/
def Obligations.FlagBitsChangeOnlyByTheirWriters : Prop :=
  ∀ s t k, step s = .next t → t.fl.getLsbD k ≠ s.fl.getLsbD k →
    (∃ i, fetched s = .ok i ∧ i.destination = some (defaultRegId .fl)) ∨
    (k < 2 ∧ ∃ i, fetched s = .ok i ∧ i.callsOperate = true) ∨
    (k = 2 ∧ ∃ kind, s.status = .running ∧ t.status = .faulted kind)

/-- R18: `ERR` has no effect on execution: a well-formed instruction that does not name `FL` does the same whatever
`ERR` is, and keeps it. -/
def Obligations.ErrDoesNotSteerExecution : Prop :=
  ∀ i s t on, i.wf = true → defaultRegId .fl ∉ i.regIds → exec i s = .next t →
    exec i (s.setFlag defaultConfig .err on) = .next (t.setFlag defaultConfig .err on)

/-- R27: no step writes an address from 511 up. -/
def Obligations.StoresStayBelow511 : Prop :=
  ∀ s t x, step s = .next t → 511 ≤ x → Memory.read t.mem x = Memory.read s.mem x

/-- R27: no step that does not fault reads an address from 511 up: replacing the memory there changes neither the
registers, the status nor the memory below. -/
def Obligations.HighMemoryIsNotRead : Prop :=
  ∀ (s t : State) (m : Memory), MemoryCanonical s → Memory.wf m = true →
    (∀ x, x < 511 → Memory.read m x = Memory.read s.mem x) → step s = .next t →
    (∀ kind, t.status ≠ .faulted kind) →
    Next (step { s with mem := m }) fun u =>
      (∀ r, u.readReg r = t.readReg r) ∧ u.status = t.status ∧ u.diag = t.diag ∧
      ∀ x, x < 511 → Memory.read u.mem x = Memory.read t.mem x

/-- R36: in the state after a store, a fetch of the stored address reads the stored byte and every other fetch what was
there, the next instruction's first byte among them; and the storing instruction itself runs as it was fetched, whatever
it writes over. -/
def Obligations.StoresAreSeenByTheNextFetch : Prop :=
  let storedByte := fun (s : State) (i : Instr) (m v : Byte) => i = .movMI m v ∨
    ∃ rs, i = .movMR m (defaultRegId rs) ∧ v = operand s 3 rs
  ∀ (s : State) (i : Instr) (m v : Byte), MemoryCanonical s → s.status = .running → fetched s = .ok i →
    storedByte s i m v →
    Next (step s) fun t => t.ip = s.ip + 3 ∧ t.status = .running ∧
      ∀ k, fetchByte k t =
        if (s.ip.toNat + 3 + k) % 256 = s.ha.toNat + m.toNat then v
        else Memory.read s.mem ((s.ip.toNat + 3 + k) % 256)

/-- R99, D17: nothing but the emitted stream depends on the text of the fault message. -/
def Obligations.OnlyTheStreamDependsOnTheFaultMessage : Prop :=
  ∀ (cfg : Config) (msg : FaultKind → List Byte) (s t : State), stepWith cfg s = .next t →
    Next (stepWith { cfg with faultMessage := msg } s) fun u =>
      (∀ r, u.readReg r = t.readReg r) ∧ u.mem = t.mem ∧ u.status = t.status

/-! ### Reset, launch and ports -/

/-- The state after reset with the empty image (R105, R106; that `State.reset` is the empty image's is the model's
choice, log entry 8). -/
def Obligations.ResetStateValues : Prop :=
  (∀ r, State.reset.readReg r = if r = .sp then 0xFF else 0x00) ∧
  (∀ x, Memory.read State.reset.mem x = 0x00) ∧ State.reset.status = .running ∧ State.reset.diag = []

/-- R105: after the boot order, from whatever state the block was in, every register has its reset value, memory is the
image and then zeros, the status is Running and nothing is emitted. The status and the load under `rst` are the spec's
own decisions D12, D14 and D21 (log entries 9 and 12). -/
def Obligations.LaunchLoadsTheImage : Prop :=
  ∀ (image : List Byte) (s : State), MemoryCanonical s → image.length ≤ 65536 →
    Next (boot image s) fun t =>
      (∀ r, t.readReg r = if r = .sp then 0xFF else 0x00) ∧
      (∀ x, x < image.length → Memory.read t.mem x = image.getD x 0) ∧
      (∀ x, image.length ≤ x → x < 65536 → Memory.read t.mem x = 0x00) ∧
      t.status = .running ∧ t.diag = [] ∧ MemoryCanonical t

/-- R106, 93 U6: an image longer than memory is refused by name (the model's form of the premise, log entry 14); the
boot order refuses no other. -/
def Obligations.TooLongAnImageIsRefused : Prop :=
  ∀ (image : List Byte) (s : State),
    (65536 < image.length → boot image s = .refused (.imageTooLarge image.length)) ∧
    (image.length ≤ 65536 → ∃ t, boot image s = .next t)

/-- R48's table. Under `rst` no step runs, the registers, the status and the stream take their reset values, and the load
port writes one byte, memory being otherwise kept. Without `rst` the load port is not honoured; a request of a running
machine is a step, and emits the stream of the fault it ends in or nothing. `step_result` is shown for a served request
only, and is R54's for the status the request leaves, repeated after the end. The observation ports show the slots in
R11's order, the addressed byte and the status. That the ports are one function of a transaction is the model's choice
(log entry 12). -/
def Obligations.PortsFollowTheirTable : Prop :=
  (∀ p s, p.rst = true → p.loadWe = false → Next (transact p s) fun t =>
    AfterRst t ∧ ∀ x, Memory.read t.mem x = Memory.read s.mem x) ∧
  (∀ p s, p.rst = true → p.loadWe = true → Next (transact p s) fun t =>
    AfterRst t ∧ (MemoryCanonical s → Memory.read t.mem p.loadAddr.toNat = p.loadData) ∧
    ∀ x, x ≠ p.loadAddr.toNat → Memory.read t.mem x = Memory.read s.mem x) ∧
  (∀ p s, p.rst = false → p.stepReq = false → transact p s = .next s ∧ (portOut p s s).diag = []) ∧
  (∀ p s, p.rst = false → p.stepReq = true → s.status = .running → Next (transact p s) fun t =>
    step s = .next t ∧ ((∀ kind, t.status ≠ .faulted kind) → (portOut p s t).diag = []) ∧
    ∀ kind, t.status = .faulted kind → (portOut p s t).diag = diagStream defaultConfig kind s.mem) ∧
  (∀ p s, p.rst = false → p.stepReq = true → s.status ≠ .running →
    transact p s = .next s ∧ (portOut p s s).diag = []) ∧
  (∀ p s t, p.rst = false → p.stepReq = true →
    (t.status = .running → (portOut p s t).stepResult = some .continues) ∧
    (t.status = .halted → (portOut p s t).stepResult = some .halted) ∧
    ∀ kind, t.status = .faulted kind → (portOut p s t).stepResult = some (.faulted kind)) ∧
  (∀ p s t, p.rst = true ∨ p.stepReq = false → (portOut p s t).stepResult = none) ∧
  (∀ p s t, p.rst = true → (portOut p s t).diag = []) ∧
  (∀ p s t, (portOut p s t).regObs = [t.a, t.b, t.c, t.d, t.ip, t.sp, t.fl, t.ha] ∧
    (portOut p s t).memObsData = Memory.read t.mem p.memObsAddr.toNat ∧ (portOut p s t).status = t.status)
end

