-- ==== Sys2Proof/Laws/Decode.lean ====
section
/-! SUPPORT. The lemmas of the opcode map's lookup. -/

namespace Sys2Proof

/-- Every opcode name stands in the list of all of them. -/
theorem Op.mem_all (o : Op) : o ∈ Op.all := by cases o <;> decide

/-- A name found for a byte has that byte (R44). -/
theorem byteOf_of_opWithByte {byteOf : Op → Byte} {b : Byte} {o : Op} (h : opWithByte byteOf b = some o) :
    byteOf o = b := by
  have := List.find?_some h
  simpa using this

/-- Under an injective map every name is found from its own byte (R44). -/
theorem opWithByte_byteOf (m : OpcodeMap) (o : Op) : opWithByte m.byteOf (m.byteOf o) = some o := by
  cases h : opWithByte m.byteOf (m.byteOf o) with
  | none =>
    have := List.find?_eq_none.1 h o (Op.mem_all o)
    simp at this
  | some p => rw [m.injective p o (byteOf_of_opWithByte h)]

/-- A byte selects no name exactly when it is outside the map's image (R45). -/
theorem opWithByte_eq_none_iff (byteOf : Op → Byte) (b : Byte) :
    opWithByte byteOf b = none ↔ ∀ o, byteOf o ≠ b := by
  constructor
  · intro h o he
    have := List.find?_eq_none.1 h o (Op.mem_all o)
    simp [he] at this
  · intro h
    exact List.find?_eq_none.2 fun o _ => by simpa using h o

/-- The opcode name of a built instruction is the one it was built from. -/
@[simp] theorem op_build (o : Op) (b1 b2 : Byte) : (o.build b1 b2).op = o := by cases o <;> rfl

end Sys2Proof
end

