-- ==== Sys2Proof/Laws/State.lean ====
section
/-! SUPPORT. One lemma per field per update of the state, so that no later proof unfolds a record update. -/

namespace Sys2Proof.Machine.State

/-! ### Reading a slot by name -/

@[simp] theorem readReg_a (s : State) : s.readReg .a = s.a := rfl
@[simp] theorem readReg_b (s : State) : s.readReg .b = s.b := rfl
@[simp] theorem readReg_c (s : State) : s.readReg .c = s.c := rfl
@[simp] theorem readReg_d (s : State) : s.readReg .d = s.d := rfl
@[simp] theorem readReg_ip (s : State) : s.readReg .ip = s.ip := rfl
@[simp] theorem readReg_sp (s : State) : s.readReg .sp = s.sp := rfl
@[simp] theorem readReg_fl (s : State) : s.readReg .fl = s.fl := rfl
@[simp] theorem readReg_ha (s : State) : s.readReg .ha = s.ha := rfl

/-! ### `writeReg` -/

@[simp] theorem writeReg_mem (s : State) (r : Reg) (v : Byte) : (s.writeReg r v).mem = s.mem := by cases r <;> rfl
@[simp] theorem writeReg_status (s : State) (r : Reg) (v : Byte) : (s.writeReg r v).status = s.status := by
  cases r <;> rfl
@[simp] theorem writeReg_diag (s : State) (r : Reg) (v : Byte) : (s.writeReg r v).diag = s.diag := by cases r <;> rfl

/-- A register read after a register write: the written slot holds the value, every other slot is as before (R12). -/
theorem readReg_writeReg (s : State) (r q : Reg) (v : Byte) :
    (s.writeReg r v).readReg q = if q = r then v else s.readReg q := by
  cases r <;> cases q <;> rfl

@[simp] theorem readReg_writeReg_same (s : State) (r : Reg) (v : Byte) : (s.writeReg r v).readReg r = v := by
  cases r <;> rfl

theorem readReg_writeReg_of_ne (s : State) {r q : Reg} (v : Byte) (h : q ≠ r) :
    (s.writeReg r v).readReg q = s.readReg q := by
  rw [readReg_writeReg, if_neg h]

theorem writeReg_ip_of_ne (s : State) {r : Reg} (v : Byte) (h : r ≠ .ip) : (s.writeReg r v).ip = s.ip :=
  readReg_writeReg_of_ne s v (Ne.symm h)

theorem writeReg_fl_of_ne (s : State) {r : Reg} (v : Byte) (h : r ≠ .fl) : (s.writeReg r v).fl = s.fl :=
  readReg_writeReg_of_ne s v (Ne.symm h)

@[simp] theorem writeReg_fl_fl (s : State) (v : Byte) : (s.writeReg .fl v).fl = v := rfl
@[simp] theorem writeReg_ip_ip (s : State) (v : Byte) : (s.writeReg .ip v).ip = v := rfl

/-! ### `advance` -/

@[simp] theorem advance_ip (s : State) (n : Nat) : (s.advance n).ip = s.ip + BitVec.ofNat 8 n := rfl
@[simp] theorem advance_fl (s : State) (n : Nat) : (s.advance n).fl = s.fl := rfl
@[simp] theorem advance_ha (s : State) (n : Nat) : (s.advance n).ha = s.ha := rfl
@[simp] theorem advance_mem (s : State) (n : Nat) : (s.advance n).mem = s.mem := rfl
@[simp] theorem advance_status (s : State) (n : Nat) : (s.advance n).status = s.status := rfl
@[simp] theorem advance_diag (s : State) (n : Nat) : (s.advance n).diag = s.diag := rfl

/-- A slot as an operand sees it after `n` bytes are fetched: `IP` is past them, every other slot is as at the start of
the step (R52). -/
theorem readReg_advance (s : State) (n : Nat) (r : Reg) :
    (s.advance n).readReg r = if r = .ip then s.ip + BitVec.ofNat 8 n else s.readReg r := by
  cases r <;> rfl

theorem readReg_advance_of_ne (s : State) (n : Nat) {r : Reg} (h : r ≠ .ip) :
    (s.advance n).readReg r = s.readReg r := by
  rw [readReg_advance, if_neg h]

/-! ### `setFlag` -/

@[simp] theorem setFlag_a (cfg : Config) (s : State) (f : Flag) (on : Bool) : (s.setFlag cfg f on).a = s.a := rfl
@[simp] theorem setFlag_b (cfg : Config) (s : State) (f : Flag) (on : Bool) : (s.setFlag cfg f on).b = s.b := rfl
@[simp] theorem setFlag_c (cfg : Config) (s : State) (f : Flag) (on : Bool) : (s.setFlag cfg f on).c = s.c := rfl
@[simp] theorem setFlag_d (cfg : Config) (s : State) (f : Flag) (on : Bool) : (s.setFlag cfg f on).d = s.d := rfl
@[simp] theorem setFlag_ip (cfg : Config) (s : State) (f : Flag) (on : Bool) : (s.setFlag cfg f on).ip = s.ip := rfl
@[simp] theorem setFlag_sp (cfg : Config) (s : State) (f : Flag) (on : Bool) : (s.setFlag cfg f on).sp = s.sp := rfl
@[simp] theorem setFlag_ha (cfg : Config) (s : State) (f : Flag) (on : Bool) : (s.setFlag cfg f on).ha = s.ha := rfl
@[simp] theorem setFlag_mem (cfg : Config) (s : State) (f : Flag) (on : Bool) : (s.setFlag cfg f on).mem = s.mem := rfl
@[simp] theorem setFlag_status (cfg : Config) (s : State) (f : Flag) (on : Bool) :
    (s.setFlag cfg f on).status = s.status := rfl
@[simp] theorem setFlag_diag (cfg : Config) (s : State) (f : Flag) (on : Bool) :
    (s.setFlag cfg f on).diag = s.diag := rfl
@[simp] theorem setFlag_fl (cfg : Config) (s : State) (f : Flag) (on : Bool) :
    (s.setFlag cfg f on).fl = byteWithBit s.fl (cfg.flagBits.bitOf f).val on := rfl

theorem readReg_setFlag_of_ne (cfg : Config) (s : State) (f : Flag) (on : Bool) {r : Reg} (h : r ≠ .fl) :
    (s.setFlag cfg f on).readReg r = s.readReg r := by
  cases r <;> first | rfl | exact absurd rfl h

/-! ### `raiseFault` -/

@[simp] theorem raiseFault_a (cfg : Config) (k : FaultKind) (s : State) : (raiseFault cfg k s).a = s.a := rfl
@[simp] theorem raiseFault_b (cfg : Config) (k : FaultKind) (s : State) : (raiseFault cfg k s).b = s.b := rfl
@[simp] theorem raiseFault_c (cfg : Config) (k : FaultKind) (s : State) : (raiseFault cfg k s).c = s.c := rfl
@[simp] theorem raiseFault_d (cfg : Config) (k : FaultKind) (s : State) : (raiseFault cfg k s).d = s.d := rfl
@[simp] theorem raiseFault_ip (cfg : Config) (k : FaultKind) (s : State) : (raiseFault cfg k s).ip = s.ip := rfl
@[simp] theorem raiseFault_sp (cfg : Config) (k : FaultKind) (s : State) : (raiseFault cfg k s).sp = s.sp := rfl
@[simp] theorem raiseFault_ha (cfg : Config) (k : FaultKind) (s : State) : (raiseFault cfg k s).ha = s.ha := rfl
@[simp] theorem raiseFault_fl (cfg : Config) (k : FaultKind) (s : State) :
    (raiseFault cfg k s).fl = byteWithBit s.fl (cfg.flagBits.bitOf .err).val true := rfl
@[simp] theorem raiseFault_mem (cfg : Config) (k : FaultKind) (s : State) : (raiseFault cfg k s).mem = s.mem := rfl
@[simp] theorem raiseFault_status (cfg : Config) (k : FaultKind) (s : State) :
    (raiseFault cfg k s).status = .faulted k := rfl
@[simp] theorem raiseFault_diag (cfg : Config) (k : FaultKind) (s : State) :
    (raiseFault cfg k s).diag = s.diag ++ diagStream cfg k s.mem := rfl

theorem readReg_raiseFault_of_ne (cfg : Config) (k : FaultKind) (s : State) {r : Reg} (h : r ≠ .fl) :
    (raiseFault cfg k s).readReg r = s.readReg r := by
  cases r <;> first | rfl | exact absurd rfl h

end Sys2Proof.Machine.State
end

