-- ==== Sys2Proof/Laws/Memory.lean ====
section
/-! SUPPORT. The laws of memory: read after write, and every operation keeps the canonical form. -/

namespace Sys2Proof.Machine

@[simp] theorem Memory.read_nil (addr : Nat) : Memory.read [] addr = 0 := rfl

/-- A list whose addresses all lie above an address does not hold it. -/
theorem Memory.read_of_wfFrom_gt {m : Memory} {lo addr : Nat} (h : Memory.wfFrom lo m = true) (hlt : addr < lo) :
    Memory.read m addr = unwrittenByte := by
  induction m generalizing lo with
  | nil => rfl
  | cons e rest ih =>
    obtain ⟨k, w⟩ := e
    simp only [Memory.wfFrom, Bool.and_eq_true, decide_eq_true_eq] at h
    obtain ⟨⟨⟨hk, -⟩, -⟩, hrest⟩ := h
    rw [Memory.read, if_neg (by omega)]
    exact ih hrest (by omega)

/-- The form from an address up holds from any lower one. -/
theorem Memory.wfFrom_mono {m : Memory} {lo lo' : Nat} (h : Memory.wfFrom lo m = true) (hle : lo' ≤ lo) :
    Memory.wfFrom lo' m = true := by
  cases m with
  | nil => rfl
  | cons e rest =>
    obtain ⟨k, w⟩ := e
    simp only [Memory.wfFrom, Bool.and_eq_true, decide_eq_true_eq] at h ⊢
    exact ⟨⟨⟨by omega, h.1.1.2⟩, h.1.2⟩, h.2⟩

/-- Reading after a write, on canonical memory: the written address holds the value, every other address is as before
(R31, R34). -/
theorem Memory.read_write_of_wfFrom {m : Memory} {lo : Nat} (h : Memory.wfFrom lo m = true) (addr x : Nat) (v : Byte) :
    Memory.read (Memory.write m addr v) x = if x = addr then v else Memory.read m x := by
  induction m generalizing lo with
  | nil =>
    unfold Memory.write
    split
    · simp_all [Memory.read]
    · simp only [Memory.read]
  | cons e rest ih =>
    obtain ⟨k, w⟩ := e
    have hrest : Memory.wfFrom (k + 1) rest = true := by
      simp only [Memory.wfFrom, Bool.and_eq_true] at h; exact h.2
    have above : ∀ y, y < k + 1 → Memory.read rest y = unwrittenByte := fun y hy => Memory.read_of_wfFrom_gt hrest hy
    unfold Memory.write
    by_cases hlt : addr < k
    · rw [if_pos hlt]
      by_cases hv : v = unwrittenByte
      · rw [if_pos hv]
        by_cases hx : x = addr
        · subst hx; rw [if_pos rfl, Memory.read, if_neg (by omega), above _ (by omega), hv]
        · rw [if_neg hx]
      · rw [if_neg hv, Memory.read]
    · rw [if_neg hlt]
      by_cases heq : addr = k
      · subst heq
        rw [if_pos rfl]
        by_cases hv : v = unwrittenByte
        · rw [if_pos hv]
          by_cases hx : x = addr
          · subst hx; rw [if_pos rfl, above _ (by omega), hv]
          · rw [if_neg hx, Memory.read, if_neg hx]
        · rw [if_neg hv, Memory.read, Memory.read]
          by_cases hx : x = addr <;> simp [hx]
      · rw [if_neg heq, Memory.read, Memory.read, ih hrest]
        by_cases hx : x = addr
        · subst hx; simp [heq]
        · simp [hx]

/-- Reading after a write, on canonical memory. -/
theorem Memory.read_write {m : Memory} (h : Memory.wf m = true) (addr x : Nat) (v : Byte) :
    Memory.read (Memory.write m addr v) x = if x = addr then v else Memory.read m x :=
  Memory.read_write_of_wfFrom h addr x v

/-- Reading elsewhere after a write needs no canonical form. -/
theorem Memory.read_write_of_ne (m : Memory) {addr x : Nat} (v : Byte) (hne : x ≠ addr) :
    Memory.read (Memory.write m addr v) x = Memory.read m x := by
  induction m with
  | nil => unfold Memory.write; split <;> simp [Memory.read, hne]
  | cons e rest ih =>
    obtain ⟨k, w⟩ := e
    unfold Memory.write
    split
    · split <;> simp [Memory.read, hne]
    · split
      · rename_i h; subst h; split <;> simp [Memory.read, hne]
      · simp [Memory.read, ih]

/-- A write inside memory keeps the canonical form from any address at or below it. -/
theorem Memory.wfFrom_write {m : Memory} {lo addr : Nat} (v : Byte) (h : Memory.wfFrom lo m = true) (hlo : lo ≤ addr)
    (hlt : addr < memSize) : Memory.wfFrom lo (Memory.write m addr v) = true := by
  induction m generalizing lo with
  | nil =>
    unfold Memory.write
    split
    · rfl
    · simp [Memory.wfFrom, *]
  | cons e rest ih =>
    obtain ⟨k, w⟩ := e
    have h' := h
    simp only [Memory.wfFrom, Bool.and_eq_true, decide_eq_true_eq] at h'
    obtain ⟨⟨⟨hk, hks⟩, hw⟩, hrest⟩ := h'
    unfold Memory.write
    split
    · split
      · exact h
      · simp only [Memory.wfFrom, Bool.and_eq_true, decide_eq_true_eq]
        exact ⟨⟨⟨hlo, hlt⟩, by assumption⟩, ⟨⟨by omega, hks⟩, hw⟩, hrest⟩
    · split
      · rename_i heq
        subst heq
        split
        · exact Memory.wfFrom_mono hrest (by omega)
        · simp only [Memory.wfFrom, Bool.and_eq_true, decide_eq_true_eq]
          exact ⟨⟨⟨hlo, hlt⟩, by assumption⟩, hrest⟩
      · simp only [Memory.wfFrom, Bool.and_eq_true, decide_eq_true_eq]
        exact ⟨⟨⟨hk, hks⟩, hw⟩, ih hrest (by omega)⟩

/-- Every write inside memory keeps the canonical form. -/
theorem Memory.wf_write {m : Memory} {addr : Nat} (v : Byte) (h : Memory.wf m = true) (hlt : addr < memSize) :
    Memory.wf (Memory.write m addr v) = true :=
  Memory.wfFrom_write v h (Nat.zero_le _) hlt

/-- Memory after reset is in the canonical form. -/
theorem Memory.wf_reset : Memory.wf State.reset.mem = true := rfl

/-- In canonical form, memory holds nothing past its last address. -/
theorem Memory.read_of_memSize_le {m : Memory} {lo addr : Nat} (h : Memory.wfFrom lo m = true) (hle : memSize ≤ addr) :
    Memory.read m addr = unwrittenByte := by
  induction m generalizing lo with
  | nil => rfl
  | cons e rest ih =>
    obtain ⟨k, w⟩ := e
    simp only [Memory.wfFrom, Bool.and_eq_true, decide_eq_true_eq] at h
    rw [Memory.read, if_neg (by omega)]
    exact ih h.2

/-- Two canonical memories that read the same everywhere are the same list. -/
theorem Memory.eq_of_read_eq {m n : Memory} {lo : Nat} (hm : Memory.wfFrom lo m = true) (hn : Memory.wfFrom lo n = true)
    (h : ∀ x, Memory.read m x = Memory.read n x) : m = n := by
  induction m generalizing n lo with
  | nil =>
    cases n with
    | nil => rfl
    | cons e rest =>
      obtain ⟨k, w⟩ := e
      have := h k
      simp only [Memory.wfFrom, Bool.and_eq_true, decide_eq_true_eq] at hn
      simp [Memory.read] at this
      exact absurd this.symm hn.1.2
  | cons e rest ih =>
    obtain ⟨k, w⟩ := e
    cases n with
    | nil =>
      have := h k
      simp only [Memory.wfFrom, Bool.and_eq_true, decide_eq_true_eq] at hm
      simp [Memory.read] at this
      exact absurd this hm.1.2
    | cons e' rest' =>
      obtain ⟨k', w'⟩ := e'
      have hm' := hm
      have hn' := hn
      simp only [Memory.wfFrom, Bool.and_eq_true, decide_eq_true_eq] at hm' hn'
      obtain ⟨⟨⟨-, -⟩, hw⟩, hr⟩ := hm'
      obtain ⟨⟨⟨-, -⟩, hw'⟩, hr'⟩ := hn'
      have hkk : k = k' := by
        rcases Nat.lt_trichotomy k k' with hlt | heq | hlt
        · have := h k
          rw [Memory.read, if_pos rfl, Memory.read, if_neg (by omega),
            Memory.read_of_wfFrom_gt hr' (by omega)] at this
          exact absurd this hw
        · exact heq
        · have := h k'
          rw [Memory.read, if_neg (by omega), Memory.read_of_wfFrom_gt hr (by omega), Memory.read, if_pos rfl] at this
          exact absurd this.symm hw'
      subst hkk
      have hww : w = w' := by simpa [Memory.read] using h k
      subst hww
      have hrest : rest = rest' := by
        refine ih hr hr' fun x => ?_
        by_cases hx : x = k
        · subst hx
          rw [Memory.read_of_wfFrom_gt hr (by omega), Memory.read_of_wfFrom_gt hr' (by omega)]
        · simpa [Memory.read, hx] using h x
      rw [hrest]

end Sys2Proof.Machine
end

