-- ==== Sys2Proof/Laws/Ops.lean ====
section
/-! SUPPORT. One lemma for each shared operation, saying once what it can do. -/

namespace Sys2Proof.Machine

/-! ### Flag bits -/

/-- Replacing a bit of a byte: that bit is the new one, the other seven are as before (R15). -/
theorem getLsbD_byteWithBit (v : Byte) (k : Fin 8) (on : Bool) (j : Nat) :
    (byteWithBit v k.val on).getLsbD j = if j = k.val then on else v.getLsbD j := by
  have key : ∀ (k : Fin 8) (j : Nat), j < 8 → ((BitVec.ofNat 8 (2 ^ k.val)).getLsbD j = decide (j = k.val)) := by
    intro k j hj
    have hk := k.isLt
    interval_cases j <;> revert k <;> decide
  by_cases hj : j < 8
  · unfold byteWithBit
    cases on
    · rw [if_neg (by decide), BitVec.getLsbD_and, BitVec.getLsbD_not, key k j hj]
      by_cases h : j = k.val <;> simp [h, hj]
    · rw [if_pos rfl, BitVec.getLsbD_or, key k j hj]
      by_cases h : j = k.val <;> simp [h]
  · have hne : j ≠ k.val := by have := k.isLt; omega
    rw [if_neg hne, BitVec.getLsbD_of_ge _ _ (by omega), BitVec.getLsbD_of_ge _ _ (by omega)]

/-- A flag read after a flag write: the written flag is the new value, the other flags are as before (R15). -/
theorem flag_setFlag (cfg : Config) (s : State) (f g : Flag) (on : Bool) :
    (s.setFlag cfg f on).flag cfg g = if g = f then on else s.flag cfg g := by
  unfold State.flag
  rw [State.setFlag_fl, getLsbD_byteWithBit]
  by_cases h : g = f
  · subst h; simp
  · have : (cfg.flagBits.bitOf g).val ≠ (cfg.flagBits.bitOf f).val := fun e =>
      h (cfg.flagBits.injective g f (Fin.ext e))
    rw [if_neg this, if_neg h]

/-- The register-write and advance views of a flag. -/
@[simp] theorem flag_advance (cfg : Config) (s : State) (n : Nat) (f : Flag) :
    (s.advance n).flag cfg f = s.flag cfg f := rfl

theorem flag_writeReg_of_ne (cfg : Config) (s : State) {r : Reg} (v : Byte) (f : Flag) (h : r ≠ .fl) :
    (s.writeReg r v).flag cfg f = s.flag cfg f := by
  unfold State.flag
  rw [State.writeReg_fl_of_ne s v h]

/-! ### Memory accesses -/

/-- A memory operand's address is at most 510, so inside memory (R27, R28, R57). -/
theorem effectiveAddress_lt (s : State) (m : Offset) : effectiveAddress s m < 511 := by
  have h1 := (zext16 s.ha).isLt
  have h2 : (zext16 s.ha).toNat = s.ha.toNat := by simp [zext16, BitVec.toNat_setWidth]; omega
  have h3 : (zext16 m).toNat = m.toNat := by simp [zext16, BitVec.toNat_setWidth]; omega
  have := s.ha.isLt
  have := m.isLt
  unfold effectiveAddress
  omega

@[simp] theorem zext16_toNat (v : Byte) : (zext16 v).toNat = v.toNat := by
  have := v.isLt
  simp [zext16, BitVec.toNat_setWidth]
  omega

theorem effectiveAddress_eq (s : State) (m : Offset) : effectiveAddress s m = s.ha.toNat + m.toNat := by
  simp [effectiveAddress]

@[simp] theorem effectiveAddress_advance (s : State) (n : Nat) (m : Offset) :
    effectiveAddress (s.advance n) m = effectiveAddress s m := rfl

/-- A read at a memory operand's address never stops. -/
theorem memRead_effectiveAddress (s t : State) (m : Offset) :
    memRead (effectiveAddress s m) t = .ok (Memory.read t.mem (effectiveAddress s m)) := by
  have := effectiveAddress_lt s m
  unfold memRead memSize
  rw [if_pos (by omega)]

/-- A write at a memory operand's address never stops. -/
theorem memWrite_effectiveAddress (s t : State) (m : Offset) (v : Byte) :
    memWrite (effectiveAddress s m) v t = .ok { t with mem := Memory.write t.mem (effectiveAddress s m) v } := by
  have := effectiveAddress_lt s m
  unfold memWrite memSize
  rw [if_pos (by omega)]

/-! ### Register ids -/

/-- A slot found for an id is the one whose id it is. -/
theorem idOf_of_slotOf {ids : RegIdMap} {b : RegId} {r : Reg} (h : slotOf ids b = some r) : ids.idOf r = b := by
  have := List.find?_some h
  simpa using this

/-- Every slot is found from its own id (R41). -/
@[simp] theorem slotOf_idOf (ids : RegIdMap) (r : Reg) : slotOf ids (ids.idOf r) = some r := by
  have hne : slotOf ids (ids.idOf r) ≠ none := by
    intro h
    have := List.find?_eq_none.1 h r (by cases r <;> decide)
    simp at this
  obtain ⟨q, hq⟩ := Option.ne_none_iff_exists'.1 hne
  rw [hq, ids.injective q r (idOf_of_slotOf hq)]

/-- An id names no slot exactly when it is 8 or more (R41). -/
theorem slotOf_eq_none_iff (ids : RegIdMap) (b : RegId) : slotOf ids b = none ↔ 8 ≤ b.toNat := by
  constructor
  · intro h
    by_contra hlt
    obtain ⟨r, rfl⟩ := ids.surjective b (by omega)
    simp at h
  · intro h
    cases hs : slotOf ids b with
    | none => rfl
    | some r =>
      have := ids.idOf_lt r
      rw [idOf_of_slotOf hs] at this
      omega

@[simp] theorem resolveReg_idOf (cfg : Config) (r : Reg) : resolveReg cfg (cfg.regIdMap.idOf r) = .ok r := by
  simp [resolveReg]

theorem resolveReg_of_ge (cfg : Config) {b : RegId} (h : 8 ≤ b.toNat) :
    resolveReg cfg b = .error (.trap .invalidRegisterId) := by
  simp [resolveReg, (slotOf_eq_none_iff cfg.regIdMap b).2 h]

/-- What resolving a register id can do: name a slot, or raise `InvalidRegisterId` (R41). -/
theorem resolveReg_cases (cfg : Config) (b : RegId) :
    (∃ r, cfg.regIdMap.idOf r = b ∧ resolveReg cfg b = .ok r) ∨
    (8 ≤ b.toNat ∧ resolveReg cfg b = .error (.trap .invalidRegisterId)) := by
  by_cases h : 8 ≤ b.toNat
  · exact .inr ⟨h, resolveReg_of_ge cfg h⟩
  · obtain ⟨r, rfl⟩ := cfg.regIdMap.surjective b (by omega)
    exact .inl ⟨r, rfl, resolveReg_idOf cfg r⟩

/-! ### Second operands -/

@[simp] theorem readSource_reg_idOf (cfg : Config) (r : Reg) (s : State) :
    readSource cfg (.reg (cfg.regIdMap.idOf r)) s = .ok (s.readReg r) := by
  simp [readSource]

@[simp] theorem readSource_mem (cfg : Config) (m : Offset) (s : State) :
    readSource cfg (.mem m) s = .ok (Memory.read s.mem (effectiveAddress s m)) :=
  memRead_effectiveAddress s s m

@[simp] theorem readSource_imm (cfg : Config) (i : Imm) (s : State) : readSource cfg (.imm i) s = .ok i := rfl

theorem readSource_reg_of_ge (cfg : Config) {b : RegId} (h : 8 ≤ b.toNat) (s : State) :
    readSource cfg (.reg b) s = .error (.trap .invalidRegisterId) := by
  simp [readSource, resolveReg_of_ge cfg h]

/-- What reading a second operand can do: give a value, or raise `InvalidRegisterId`; it never stops the model. -/
theorem readSource_cases (cfg : Config) (src : Source) (s : State) :
    (∃ v, readSource cfg src s = .ok v) ∨ readSource cfg src s = .error (.trap .invalidRegisterId) := by
  cases src with
  | reg b =>
    obtain ⟨r, rfl, -⟩ | ⟨h, -⟩ := resolveReg_cases cfg b
    · exact .inl ⟨_, readSource_reg_idOf cfg r s⟩
    · exact .inr (readSource_reg_of_ge cfg h s)
  | mem m => exact .inl ⟨_, readSource_mem cfg m s⟩
  | imm i => exact .inl ⟨i, rfl⟩

/-! ### Jumps -/

theorem zext16_setWidth (a : Byte) : (zext16 a).setWidth 8 = a := by
  apply BitVec.eq_of_toNat_eq
  have := a.isLt
  rw [BitVec.toNat_setWidth, zext16_toNat]
  omega

/-- What a jump can do: set `IP` to its target, or raise `InvalidControlTarget` (R87). -/
theorem jump_cases (cfg : Config) (a : Target) (s : State) :
    jump cfg (zext16 a) s = .ok (s.writeReg .ip a) ∨
    jump cfg (zext16 a) s = .error (.trap .invalidControlTarget) := by
  unfold jump
  split
  · rw [zext16_setWidth]; exact .inl rfl
  · exact .inr rfl

/-- Under the default bound every one-byte target is valid (R87). -/
theorem jump_default (a : Target) (s : State) : jump defaultConfig (zext16 a) s = .ok (s.writeReg .ip a) := by
  have h : defaultConfig.jumpBound (zext16 a).toNat = true := by
    have := a.isLt
    rw [zext16_toNat]
    exact decide_eq_true (show a.toNat < 65536 by omega)
  unfold jump
  rw [if_pos h, zext16_setWidth]

/-! ### The flag-update rule -/

/-- The byte `operate` answers is its argument modulo 256 (R55). -/
@[simp] theorem operate_fst (cfg : Config) (x : Int) (s : State) : (operate cfg x s).1 = clampByte x := by
  unfold operate
  by_cases h : x = 0
  · subst h; simp [clampByte]
  · simp only [h, if_false]
    split <;> rfl

/-- `operate` changes nothing but `FL` (R55). -/
theorem readReg_operate_of_ne (cfg : Config) (x : Int) (s : State) {r : Reg} (h : r ≠ .fl) :
    (operate cfg x s).2.readReg r = s.readReg r := by
  unfold operate
  simp only
  split
  · simp [State.readReg_setFlag_of_ne, h]
  · split <;> simp [State.readReg_setFlag_of_ne, h]

@[simp] theorem operate_ip (cfg : Config) (x : Int) (s : State) : (operate cfg x s).2.ip = s.ip :=
  readReg_operate_of_ne cfg x s (r := .ip) (by decide)

@[simp] theorem operate_mem (cfg : Config) (x : Int) (s : State) : (operate cfg x s).2.mem = s.mem := by
  unfold operate; simp only; split
  · rfl
  · split <;> rfl

@[simp] theorem operate_status (cfg : Config) (x : Int) (s : State) : (operate cfg x s).2.status = s.status := by
  unfold operate; simp only; split
  · rfl
  · split <;> rfl

@[simp] theorem operate_diag (cfg : Config) (x : Int) (s : State) : (operate cfg x s).2.diag = s.diag := by
  unfold operate; simp only; split
  · rfl
  · split <;> rfl

/-- What `operate` leaves in each bit of `FL`: `Z` iff the unclamped result is 0, `C` iff it is outside 0 to 255, every
other bit as before (R15, R55). -/
theorem operate_fl_bit (cfg : Config) (x : Int) (s : State) (j : Nat) :
    (operate cfg x s).2.fl.getLsbD j =
      if j = (cfg.flagBits.bitOf .z).val then decide (x = 0)
      else if j = (cfg.flagBits.bitOf .c).val then decide (x < 0 ∨ 255 < x)
      else s.fl.getLsbD j := by
  have hzc : (cfg.flagBits.bitOf .z).val ≠ (cfg.flagBits.bitOf .c).val := fun e =>
    absurd (cfg.flagBits.injective .z .c (Fin.ext e)) (by decide)
  by_cases h0 : x = 0
  · subst h0
    simp only [operate, if_true, State.setFlag_fl, getLsbD_byteWithBit]
    split_ifs <;> simp_all
  · by_cases h1 : x < 0 ∨ 255 < x
    · simp only [operate, h0, h1, if_false, if_true, State.setFlag_fl, getLsbD_byteWithBit]
      split_ifs <;> simp_all
    · simp only [operate, h0, h1, if_false, State.setFlag_fl, getLsbD_byteWithBit]
      split_ifs <;> simp_all

/-- The destination of an ALU instruction holds the result byte, whichever slot it is (R58). -/
@[simp] theorem operateInto_dest (cfg : Config) (rd : Reg) (x : Int) (s : State) :
    (operateInto cfg rd x s).readReg rd = clampByte x := by
  simp [operateInto]

/-- Every slot but the destination and `FL` is as before. -/
theorem operateInto_of_ne (cfg : Config) (rd : Reg) (x : Int) (s : State) {r : Reg} (hrd : r ≠ rd) (hfl : r ≠ .fl) :
    (operateInto cfg rd x s).readReg r = s.readReg r := by
  rw [operateInto, State.readReg_writeReg_of_ne _ _ hrd, readReg_operate_of_ne _ _ _ hfl]

/-- Unless it is the destination, `FL` is what `operate` left. -/
theorem operateInto_fl (cfg : Config) {rd : Reg} (x : Int) (s : State) (h : rd ≠ .fl) :
    (operateInto cfg rd x s).fl = (operate cfg x s).2.fl := by
  rw [operateInto, State.writeReg_fl_of_ne _ _ h]

@[simp] theorem operateInto_mem (cfg : Config) (rd : Reg) (x : Int) (s : State) :
    (operateInto cfg rd x s).mem = s.mem := by simp [operateInto]
@[simp] theorem operateInto_status (cfg : Config) (rd : Reg) (x : Int) (s : State) :
    (operateInto cfg rd x s).status = s.status := by simp [operateInto]
@[simp] theorem operateInto_diag (cfg : Config) (rd : Reg) (x : Int) (s : State) :
    (operateInto cfg rd x s).diag = s.diag := by simp [operateInto]

/-! ### Forming the outcome -/

@[simp] theorem finish_ok (cfg : Config) (s0 t : State) : finish cfg s0 (.ok t) = .next t := rfl
@[simp] theorem finish_trap (cfg : Config) (s0 : State) (k : FaultKind) :
    finish cfg s0 (.error (.trap k)) = .next (raiseFault cfg k s0) := rfl

/-- The stream is never empty and its marks are on its last transfer only (R99). -/
theorem map_data_markLast (l : List Byte) : (markLast l).map DiagByte.data = l := by
  induction l with
  | nil => rfl
  | cons v rest ih =>
    cases rest with
    | nil => rfl
    | cons w rest => simpa [markLast] using ih

@[simp] theorem length_diagWindow (m : Memory) : (diagWindow m).length = 4096 := by simp [diagWindow, diagLen]

end Sys2Proof.Machine
end

