-- ==== Sys2Proof/Laws/Shapes.lean ====
section
/-! SUPPORT. For each shared shape of the instructions, everything it can do, said once. -/

namespace Sys2Proof.Machine

/-- `moveInto` writes its destination, or raises `InvalidRegisterId` (R60, R61, R62). -/
theorem moveInto_cases (cfg : Config) (d : RegId) (src : Source) (s0 : State) :
    (∃ rd v, cfg.regIdMap.idOf rd = d ∧ readSource cfg src (s0.advance 3) = .ok v ∧
      moveInto cfg d src s0 = .next ((s0.advance 3).writeReg rd v)) ∨
    ((8 ≤ d.toNat ∨ readSource cfg src (s0.advance 3) = .error (.trap .invalidRegisterId)) ∧
      moveInto cfg d src s0 = .next (raiseFault cfg .invalidRegisterId s0)) := by
  obtain ⟨rd, hrd, hd⟩ | ⟨h, hd⟩ := resolveReg_cases cfg d
  · obtain ⟨v, hv⟩ | hv := readSource_cases cfg src (s0.advance 3)
    · exact .inl ⟨rd, v, hrd, hv, by simp [moveInto, hd, hv, bind, Except.bind, pure, Except.pure]⟩
    · exact .inr ⟨.inr hv, by simp [moveInto, hd, hv, bind, Except.bind]⟩
  · exact .inr ⟨.inl h, by simp [moveInto, hd, bind, Except.bind]⟩

/-- `storeTo` writes one byte at the effective address, or raises `InvalidRegisterId` (R63, R64). -/
theorem storeTo_cases (cfg : Config) (m : Offset) (src : Source) (s0 : State) :
    (∃ v, readSource cfg src (s0.advance 3) = .ok v ∧
      storeTo cfg m src s0 =
        .next { s0.advance 3 with mem := Memory.write s0.mem (effectiveAddress s0 m) v }) ∨
    (readSource cfg src (s0.advance 3) = .error (.trap .invalidRegisterId) ∧
      storeTo cfg m src s0 = .next (raiseFault cfg .invalidRegisterId s0)) := by
  obtain ⟨v, hv⟩ | hv := readSource_cases cfg src (s0.advance 3)
  · exact .inl ⟨v, hv, by simp [storeTo, hv, bind, Except.bind, memWrite_effectiveAddress]⟩
  · exact .inr ⟨hv, by simp [storeTo, hv, bind, Except.bind]⟩

/-- `aluByOne` writes its register through `operate`, or raises `InvalidRegisterId` (R66, R67). -/
theorem aluByOne_cases (cfg : Config) (f : Byte → Byte → Int) (r : RegId) (s0 : State) :
    (∃ rr, cfg.regIdMap.idOf rr = r ∧
      aluByOne cfg f r s0 = .next (operateInto cfg rr (f ((s0.advance 2).readReg rr) 1) (s0.advance 2))) ∨
    (8 ≤ r.toNat ∧ aluByOne cfg f r s0 = .next (raiseFault cfg .invalidRegisterId s0)) := by
  obtain ⟨rr, hrr, hr⟩ | ⟨h, hr⟩ := resolveReg_cases cfg r
  · exact .inl ⟨rr, hrr, by simp [aluByOne, hr, bind, Except.bind, pure, Except.pure]⟩
  · exact .inr ⟨h, by simp [aluByOne, hr, bind, Except.bind]⟩

/-- `complement` writes its register, or raises `InvalidRegisterId` (R83). -/
theorem complement_cases (cfg : Config) (r : RegId) (s0 : State) :
    (∃ rr, cfg.regIdMap.idOf rr = r ∧
      complement cfg r s0 = .next ((s0.advance 2).writeReg rr (~~~((s0.advance 2).readReg rr)))) ∨
    (8 ≤ r.toNat ∧ complement cfg r s0 = .next (raiseFault cfg .invalidRegisterId s0)) := by
  obtain ⟨rr, hrr, hr⟩ | ⟨h, hr⟩ := resolveReg_cases cfg r
  · exact .inl ⟨rr, hrr, by simp [complement, hr, bind, Except.bind, pure, Except.pure]⟩
  · exact .inr ⟨h, by simp [complement, hr, bind, Except.bind]⟩

/-- `aluInto` writes its destination through `operate`, or raises `InvalidRegisterId` (R65). -/
theorem aluInto_cases (cfg : Config) (f : Byte → Byte → Int) (d : RegId) (src : Source) (s0 : State) :
    (∃ rd v, cfg.regIdMap.idOf rd = d ∧ readSource cfg src (s0.advance 3) = .ok v ∧
      aluInto cfg f d src s0 = .next (operateInto cfg rd (f ((s0.advance 3).readReg rd) v) (s0.advance 3))) ∨
    ((8 ≤ d.toNat ∨ readSource cfg src (s0.advance 3) = .error (.trap .invalidRegisterId)) ∧
      aluInto cfg f d src s0 = .next (raiseFault cfg .invalidRegisterId s0)) := by
  obtain ⟨rd, hrd, hd⟩ | ⟨h, hd⟩ := resolveReg_cases cfg d
  · obtain ⟨v, hv⟩ | hv := readSource_cases cfg src (s0.advance 3)
    · exact .inl ⟨rd, v, hrd, hv, by simp [aluInto, hd, hv, bind, Except.bind, pure, Except.pure]⟩
    · exact .inr ⟨.inr hv, by simp [aluInto, hd, hv, bind, Except.bind]⟩
  · exact .inr ⟨.inl h, by simp [aluInto, hd, bind, Except.bind]⟩

/-- `compareWith` changes only the flags and `IP`, or raises `InvalidRegisterId` (R84). -/
theorem compareWith_cases (cfg : Config) (a : RegId) (src : Source) (s0 : State) :
    (∃ ra v, cfg.regIdMap.idOf ra = a ∧ readSource cfg src (s0.advance 3) = .ok v ∧
      compareWith cfg a src s0 =
        .next (operateDiscard cfg (aluSub ((s0.advance 3).readReg ra) v) (s0.advance 3))) ∨
    ((8 ≤ a.toNat ∨ readSource cfg src (s0.advance 3) = .error (.trap .invalidRegisterId)) ∧
      compareWith cfg a src s0 = .next (raiseFault cfg .invalidRegisterId s0)) := by
  obtain ⟨ra, hra, hd⟩ | ⟨h, hd⟩ := resolveReg_cases cfg a
  · obtain ⟨v, hv⟩ | hv := readSource_cases cfg src (s0.advance 3)
    · exact .inl ⟨ra, v, hra, hv, by simp [compareWith, hd, hv, bind, Except.bind, pure, Except.pure]⟩
    · exact .inr ⟨.inr hv, by simp [compareWith, hd, hv, bind, Except.bind]⟩
  · exact .inr ⟨.inl h, by simp [compareWith, hd, bind, Except.bind]⟩

/-- `jumpIf` sets `IP` to the target when taken and valid, raises `InvalidControlTarget` when taken and not valid, and
otherwise leaves `IP` past the address operand (R87, R88). -/
theorem jumpIf_cases (cfg : Config) (taken : Bool) (a : Target) (s0 : State) :
    (taken = true ∧ jumpIf cfg taken a s0 = .next ((s0.advance 2).writeReg .ip a)) ∨
    (taken = true ∧ jumpIf cfg taken a s0 = .next (raiseFault cfg .invalidControlTarget s0)) ∨
    (taken = false ∧ jumpIf cfg taken a s0 = .next (s0.advance 2)) := by
  cases taken with
  | false => exact .inr (.inr ⟨rfl, rfl⟩)
  | true =>
    obtain h | h := jump_cases cfg a (s0.advance 2)
    · exact .inl ⟨rfl, by simp [jumpIf, h]⟩
    · exact .inr (.inl ⟨rfl, by simp [jumpIf, h]⟩)

/-! ### The shapes on operands known to be good or bad -/

/-- The move whose operands resolve. -/
theorem moveInto_ok (cfg : Config) (rd : Reg) {src : Source} {s0 : State} {v : Byte}
    (h : readSource cfg src (s0.advance 3) = .ok v) :
    moveInto cfg (cfg.regIdMap.idOf rd) src s0 = .next ((s0.advance 3).writeReg rd v) := by
  simp [moveInto, h, bind, Except.bind, pure, Except.pure]

/-- The store whose source resolves. -/
theorem storeTo_ok (cfg : Config) (m : Offset) {src : Source} {s0 : State} {v : Byte}
    (h : readSource cfg src (s0.advance 3) = .ok v) :
    storeTo cfg m src s0 = .next { s0.advance 3 with mem := Memory.write s0.mem (effectiveAddress s0 m) v } := by
  simp [storeTo, h, bind, Except.bind, memWrite_effectiveAddress]

/-- `INC` or `DEC` of a slot. -/
theorem aluByOne_ok (cfg : Config) (f : Byte → Byte → Int) (rr : Reg) (s0 : State) :
    aluByOne cfg f (cfg.regIdMap.idOf rr) s0 =
      .next (operateInto cfg rr (f ((s0.advance 2).readReg rr) 1) (s0.advance 2)) := by
  simp [aluByOne, bind, Except.bind, pure, Except.pure]

/-- `NOT` of a slot. -/
theorem complement_ok (cfg : Config) (rr : Reg) (s0 : State) :
    complement cfg (cfg.regIdMap.idOf rr) s0 =
      .next ((s0.advance 2).writeReg rr (~~~((s0.advance 2).readReg rr))) := by
  simp [complement, bind, Except.bind, pure, Except.pure]

/-- The ALU operation whose operands resolve. -/
theorem aluInto_ok (cfg : Config) (f : Byte → Byte → Int) (rd : Reg) {src : Source} {s0 : State} {v : Byte}
    (h : readSource cfg src (s0.advance 3) = .ok v) :
    aluInto cfg f (cfg.regIdMap.idOf rd) src s0 =
      .next (operateInto cfg rd (f ((s0.advance 3).readReg rd) v) (s0.advance 3)) := by
  simp [aluInto, h, bind, Except.bind, pure, Except.pure]

/-- The compare whose operands resolve. -/
theorem compareWith_ok (cfg : Config) (ra : Reg) {src : Source} {s0 : State} {v : Byte}
    (h : readSource cfg src (s0.advance 3) = .ok v) :
    compareWith cfg (cfg.regIdMap.idOf ra) src s0 =
      .next (operateDiscard cfg (aluSub ((s0.advance 3).readReg ra) v) (s0.advance 3)) := by
  simp [compareWith, h, bind, Except.bind, pure, Except.pure]

/-- A destination id that names no slot faults every shape that has one. -/
theorem shapes_of_bad_id (cfg : Config) {d : RegId} (h : 8 ≤ d.toNat) (f : Byte → Byte → Int) (src : Source)
    (s0 : State) :
    moveInto cfg d src s0 = .next (raiseFault cfg .invalidRegisterId s0) ∧
    aluByOne cfg f d s0 = .next (raiseFault cfg .invalidRegisterId s0) ∧
    complement cfg d s0 = .next (raiseFault cfg .invalidRegisterId s0) ∧
    aluInto cfg f d src s0 = .next (raiseFault cfg .invalidRegisterId s0) ∧
    compareWith cfg d src s0 = .next (raiseFault cfg .invalidRegisterId s0) := by
  simp [moveInto, aluByOne, complement, aluInto, compareWith, resolveReg_of_ge cfg h, bind, Except.bind]

/-- A source that names no slot faults every shape that has one, whatever the destination id. -/
theorem shapes_of_bad_source (cfg : Config) {src : Source} {s0 : State}
    (h : readSource cfg src (s0.advance 3) = .error (.trap .invalidRegisterId)) (f : Byte → Byte → Int) (d : RegId)
    (m : Offset) :
    moveInto cfg d src s0 = .next (raiseFault cfg .invalidRegisterId s0) ∧
    storeTo cfg m src s0 = .next (raiseFault cfg .invalidRegisterId s0) ∧
    aluInto cfg f d src s0 = .next (raiseFault cfg .invalidRegisterId s0) ∧
    compareWith cfg d src s0 = .next (raiseFault cfg .invalidRegisterId s0) := by
  obtain ⟨r, -, hd⟩ | ⟨-, hd⟩ := resolveReg_cases cfg d <;>
    simp [moveInto, storeTo, aluInto, compareWith, hd, h, bind, Except.bind]

/-- Under the default bound a jump never faults (R87). -/
theorem jumpIf_default (taken : Bool) (a : Target) (s0 : State) :
    jumpIf defaultConfig taken a s0 =
      .next (if taken then (s0.advance 2).writeReg .ip a else s0.advance 2) := by
  cases taken with
  | false => rfl
  | true => simp [jumpIf, jump_default]

end Sys2Proof.Machine
end

