-- ==== Sys2Proof/Laws/Step.lean ====
section
/-! SUPPORT. What a step can do, and how the default configuration's definitions are the general ones. -/

namespace Sys2Proof.Machine

/-- `exec` is the general meaning under the default configuration. -/
theorem exec_eq_execWith (i : Instr) (s : State) : exec i s = execWith defaultConfig i s := by
  cases i <;> rfl

/-- `step` is the general step under the default configuration. -/
theorem step_eq_stepWith (s : State) : step s = stepWith defaultConfig s := by
  have h : exec = execWith defaultConfig := by
    funext i t
    exact exec_eq_execWith i t
  rw [step, stepWith, h]

/-- What a step around a meaning can do: nothing while the run is over, the meaning of the fetched instruction, or the
unmapped-opcode fault (R49, R50). -/
theorem stepBy_cases (cfg : Config) (run : Instr → State → Host.Outcome State Fault Refusal) (s : State) :
    (s.status ≠ .running ∧ stepBy cfg run s = .next s) ∨
    (s.status = .running ∧ ∃ i, fetchDecode cfg s = .ok i ∧ stepBy cfg run s = run i s) ∨
    (s.status = .running ∧ (∃ b, fetchDecode cfg s = .error (.unmappedOpcode b)) ∧
      stepBy cfg run s = .next (raiseFault cfg .unmappedOpcode s)) := by
  unfold stepBy
  cases hs : s.status with
  | halted => exact .inl ⟨by simp, rfl⟩
  | faulted k => exact .inl ⟨by simp, rfl⟩
  | running =>
    cases hd : fetchDecode cfg s with
    | ok i => exact .inr (.inl ⟨rfl, i, rfl, rfl⟩)
    | error e =>
      obtain ⟨b⟩ := e
      exact .inr (.inr ⟨rfl, ⟨b, rfl⟩, rfl⟩)

theorem fetchAddress_eq (k : Nat) (s : State) : fetchAddress k s = (s.ip.toNat + k) % 256 := by
  simp [fetchAddress, BitVec.toNat_add]

theorem fetchAddress_lt (k : Nat) (s : State) : fetchAddress k s < memSize := by
  rw [fetchAddress_eq]
  exact Nat.lt_trans (Nat.mod_lt _ (by decide)) (by decide)

/-- The three bytes placed where the next step fetches are the bytes it fetches. -/
theorem fetchByte_placeAtFetch {s : State} (h : Memory.wf s.mem = true) (b0 b1 b2 : Byte) :
    fetchByte 0 (placeAtFetch b0 b1 b2 s) = b0 ∧ fetchByte 1 (placeAtFetch b0 b1 b2 s) = b1 ∧
    fetchByte 2 (placeAtFetch b0 b1 b2 s) = b2 := by
  have w1 := Memory.wf_write b0 h (fetchAddress_lt 0 s)
  have w2 := Memory.wf_write b1 w1 (fetchAddress_lt 1 s)
  have n01 : fetchAddress 0 s ≠ fetchAddress 1 s := by simp only [fetchAddress_eq]; omega
  have n02 : fetchAddress 0 s ≠ fetchAddress 2 s := by simp only [fetchAddress_eq]; omega
  have n12 : fetchAddress 1 s ≠ fetchAddress 2 s := by simp only [fetchAddress_eq]; omega
  have e (k : Nat) : fetchByte k (placeAtFetch b0 b1 b2 s) = Memory.read (Memory.write (Memory.write
      (Memory.write s.mem (fetchAddress 0 s) b0) (fetchAddress 1 s) b1) (fetchAddress 2 s) b2) (fetchAddress k s) := rfl
  refine ⟨?_, ?_, ?_⟩
  · rw [e, Memory.read_write w2, if_neg n02, Memory.read_write w1, if_neg n01, Memory.read_write h, if_pos rfl]
  · rw [e, Memory.read_write w2, if_neg n12, Memory.read_write w1, if_pos rfl]
  · rw [e, Memory.read_write w2, if_pos rfl]

end Sys2Proof.Machine
end

