-- ==== Sys2Proof/Laws/Exec.lean ====
section
/-! SUPPORT. What `exec` can do, said once for all instructions: each one is an instance of one of eight shapes. -/

namespace Sys2Proof.Machine

/-- The register ids a second operand holds. -/
def Source.ids : Source → List RegId
  | .reg id => [id]
  | .mem _ | .imm _ => []

/-- To show something of every instruction's meaning it is enough to show it of the eight shapes, with what the syntax
says of the instruction: the ids it names, its destination, whether it calls `operate`. -/
theorem execWith_by_shape (cfg : Config) {P : Instr → (State → Host.Outcome State Fault Refusal) → Prop}
    (halt : P .hlt fun s => .next { s with status := .halted })
    (move : ∀ i d src, i.regIds = d :: src.ids → i.destination = some d → i ≠ .hlt → P i (moveInto cfg d src))
    (store : ∀ i m src, i.regIds = src.ids → i.destination = none → i ≠ .hlt → P i (storeTo cfg m src))
    (byOne : ∀ i f r, i.regIds = [r] → i.destination = some r → i.callsOperate = true → i ≠ .hlt →
      P i (aluByOne cfg f r))
    (compl : ∀ i r, i.regIds = [r] → i.destination = some r → i ≠ .hlt → P i (complement cfg r))
    (alu : ∀ i f d src, i.regIds = d :: src.ids → i.destination = some d → i.callsOperate = true → i ≠ .hlt →
      P i (aluInto cfg f d src))
    (cmp : ∀ i a src, i.regIds = a :: src.ids → i.destination = none → i.callsOperate = true → i ≠ .hlt →
      P i (compareWith cfg a src))
    (branch : ∀ i (cond : Bool → Bool → Bool) a, i.regIds = [] → i.destination = none → i ≠ .hlt →
      P i fun s => jumpIf cfg (cond (s.flag cfg .z) (s.flag cfg .c)) a s)
    (i : Instr) : P i (execWith cfg i) := by
  cases i with
  | hlt => exact halt
  | movRR x y => exact move _ x (.reg y) rfl rfl nofun
  | movRM x y => exact move _ x (.mem y) rfl rfl nofun
  | movRI x y => exact move _ x (.imm y) rfl rfl nofun
  | movMR x y => exact store _ x (.reg y) rfl rfl nofun
  | movMI x y => exact store _ x (.imm y) rfl rfl nofun
  | incR x => exact byOne _ aluAdd x rfl rfl rfl nofun
  | decR x => exact byOne _ aluSub x rfl rfl rfl nofun
  | addRR x y => exact alu _ aluAdd x (.reg y) rfl rfl rfl nofun
  | addRM x y => exact alu _ aluAdd x (.mem y) rfl rfl rfl nofun
  | addRI x y => exact alu _ aluAdd x (.imm y) rfl rfl rfl nofun
  | subRR x y => exact alu _ aluSub x (.reg y) rfl rfl rfl nofun
  | subRM x y => exact alu _ aluSub x (.mem y) rfl rfl rfl nofun
  | subRI x y => exact alu _ aluSub x (.imm y) rfl rfl rfl nofun
  | andRR x y => exact alu _ aluAnd x (.reg y) rfl rfl rfl nofun
  | andRM x y => exact alu _ aluAnd x (.mem y) rfl rfl rfl nofun
  | andRI x y => exact alu _ aluAnd x (.imm y) rfl rfl rfl nofun
  | orRR x y => exact alu _ aluOr x (.reg y) rfl rfl rfl nofun
  | orRM x y => exact alu _ aluOr x (.mem y) rfl rfl rfl nofun
  | orRI x y => exact alu _ aluOr x (.imm y) rfl rfl rfl nofun
  | xorRR x y => exact alu _ aluXor x (.reg y) rfl rfl rfl nofun
  | xorRM x y => exact alu _ aluXor x (.mem y) rfl rfl rfl nofun
  | xorRI x y => exact alu _ aluXor x (.imm y) rfl rfl rfl nofun
  | notR x => exact compl _ x rfl rfl nofun
  | cmpRR x y => exact cmp _ x (.reg y) rfl rfl rfl nofun
  | cmpRM x y => exact cmp _ x (.mem y) rfl rfl rfl nofun
  | cmpRI x y => exact cmp _ x (.imm y) rfl rfl rfl nofun
  | jmpI x => exact branch _ (fun _ _ => true) x rfl rfl nofun
  | jzI x => exact branch _ (fun z _ => z) x rfl rfl nofun
  | jnzI x => exact branch _ (fun z _ => !z) x rfl rfl nofun
  | jcI x => exact branch _ (fun _ c => c) x rfl rfl nofun
  | jncI x => exact branch _ (fun _ c => !c) x rfl rfl nofun
  | jaI x => exact branch _ (fun z c => !z && !c) x rfl rfl nofun
  | jnaI x => exact branch _ (fun z c => z || c) x rfl rfl nofun

end Sys2Proof.Machine
end

