-- ==== Sys2Proof/Laws/PerInstr.lean ====
section
/-! SUPPORT. Statements about every instruction, proved constructor by constructor. -/

namespace Sys2Proof.Laws.EncodeLength

/-- Under every opcode map an instruction's encoding has the length of its form and begins with its opcode byte
(R38, R39). -/
def Statement (i : Instr) : Prop :=
  ∀ m : OpcodeMap, (encodeWith m i).length = i.length ∧ (encodeWith m i).head? = some (m.byteOf i.op)

theorem hlt : Statement .hlt := fun _ => ⟨rfl, rfl⟩
theorem movRR (x y : Byte) : Statement (.movRR x y) := fun _ => ⟨rfl, rfl⟩
theorem movRM (x y : Byte) : Statement (.movRM x y) := fun _ => ⟨rfl, rfl⟩
theorem movRI (x y : Byte) : Statement (.movRI x y) := fun _ => ⟨rfl, rfl⟩
theorem movMR (x y : Byte) : Statement (.movMR x y) := fun _ => ⟨rfl, rfl⟩
theorem movMI (x y : Byte) : Statement (.movMI x y) := fun _ => ⟨rfl, rfl⟩
theorem incR (x : Byte) : Statement (.incR x) := fun _ => ⟨rfl, rfl⟩
theorem decR (x : Byte) : Statement (.decR x) := fun _ => ⟨rfl, rfl⟩
theorem addRR (x y : Byte) : Statement (.addRR x y) := fun _ => ⟨rfl, rfl⟩
theorem addRM (x y : Byte) : Statement (.addRM x y) := fun _ => ⟨rfl, rfl⟩
theorem addRI (x y : Byte) : Statement (.addRI x y) := fun _ => ⟨rfl, rfl⟩
theorem subRR (x y : Byte) : Statement (.subRR x y) := fun _ => ⟨rfl, rfl⟩
theorem subRM (x y : Byte) : Statement (.subRM x y) := fun _ => ⟨rfl, rfl⟩
theorem subRI (x y : Byte) : Statement (.subRI x y) := fun _ => ⟨rfl, rfl⟩
theorem andRR (x y : Byte) : Statement (.andRR x y) := fun _ => ⟨rfl, rfl⟩
theorem andRM (x y : Byte) : Statement (.andRM x y) := fun _ => ⟨rfl, rfl⟩
theorem andRI (x y : Byte) : Statement (.andRI x y) := fun _ => ⟨rfl, rfl⟩
theorem orRR (x y : Byte) : Statement (.orRR x y) := fun _ => ⟨rfl, rfl⟩
theorem orRM (x y : Byte) : Statement (.orRM x y) := fun _ => ⟨rfl, rfl⟩
theorem orRI (x y : Byte) : Statement (.orRI x y) := fun _ => ⟨rfl, rfl⟩
theorem xorRR (x y : Byte) : Statement (.xorRR x y) := fun _ => ⟨rfl, rfl⟩
theorem xorRM (x y : Byte) : Statement (.xorRM x y) := fun _ => ⟨rfl, rfl⟩
theorem xorRI (x y : Byte) : Statement (.xorRI x y) := fun _ => ⟨rfl, rfl⟩
theorem notR (x : Byte) : Statement (.notR x) := fun _ => ⟨rfl, rfl⟩
theorem cmpRR (x y : Byte) : Statement (.cmpRR x y) := fun _ => ⟨rfl, rfl⟩
theorem cmpRM (x y : Byte) : Statement (.cmpRM x y) := fun _ => ⟨rfl, rfl⟩
theorem cmpRI (x y : Byte) : Statement (.cmpRI x y) := fun _ => ⟨rfl, rfl⟩
theorem jmpI (x : Byte) : Statement (.jmpI x) := fun _ => ⟨rfl, rfl⟩
theorem jzI (x : Byte) : Statement (.jzI x) := fun _ => ⟨rfl, rfl⟩
theorem jnzI (x : Byte) : Statement (.jnzI x) := fun _ => ⟨rfl, rfl⟩
theorem jcI (x : Byte) : Statement (.jcI x) := fun _ => ⟨rfl, rfl⟩
theorem jncI (x : Byte) : Statement (.jncI x) := fun _ => ⟨rfl, rfl⟩
theorem jaI (x : Byte) : Statement (.jaI x) := fun _ => ⟨rfl, rfl⟩
theorem jnaI (x : Byte) : Statement (.jnaI x) := fun _ => ⟨rfl, rfl⟩

end Sys2Proof.Laws.EncodeLength
end

