-- ==== Sys2Proof/Laws/Ports.lean ====
section
/-! SUPPORT. What a transaction can do, and the fields of the states that `rst` and the load port leave. -/

namespace Sys2Proof.Machine

@[simp] theorem applyRst_readReg (s : State) (r : Reg) :
    (applyRst s).readReg r = if r = .sp then 0xFF else 0x00 := by cases r <;> rfl
@[simp] theorem applyRst_mem (s : State) : (applyRst s).mem = s.mem := rfl
@[simp] theorem applyRst_status (s : State) : (applyRst s).status = .running := rfl
@[simp] theorem applyRst_diag (s : State) : (applyRst s).diag = [] := rfl

@[simp] theorem loadByte_readReg (addr : BitVec 16) (v : Byte) (s : State) (r : Reg) :
    (loadByte addr v s).readReg r = s.readReg r := by cases r <;> rfl
@[simp] theorem loadByte_mem (addr : BitVec 16) (v : Byte) (s : State) :
    (loadByte addr v s).mem = Memory.write s.mem addr.toNat v := rfl
@[simp] theorem loadByte_status (addr : BitVec 16) (v : Byte) (s : State) : (loadByte addr v s).status = s.status := rfl
@[simp] theorem loadByte_diag (addr : BitVec 16) (v : Byte) (s : State) : (loadByte addr v s).diag = s.diag := rfl

@[simp] theorem resultOf_running : resultOf .running = .continues := rfl
@[simp] theorem resultOf_halted : resultOf .halted = .halted := rfl
@[simp] theorem resultOf_faulted (kind : FaultKind) : resultOf (.faulted kind) = .faulted kind := rfl

/-- A transaction is a reset, a reset with a load, a step, or nothing. -/
theorem transact_cases (p : PortIn) (s : State) :
    (p.rst = true ∧ p.loadWe = false ∧ transact p s = .next (applyRst s)) ∨
    (p.rst = true ∧ p.loadWe = true ∧ transact p s = .next (loadByte p.loadAddr p.loadData (applyRst s))) ∨
    (p.rst = false ∧ p.stepReq = true ∧ transact p s = step s) ∨
    (p.rst = false ∧ p.stepReq = false ∧ transact p s = .next s) := by
  cases h1 : p.rst <;> cases h2 : p.loadWe <;> cases h3 : p.stepReq <;> simp [transact, h1, h2, h3]

/-- The `step_result` port: shown for a served request only, from the status it leaves. -/
theorem portOut_stepResult (p : PortIn) (s t : State) :
    (portOut p s t).stepResult = if p.rst = false ∧ p.stepReq = true then some (resultOf t.status) else none := by
  cases h1 : p.rst <;> cases h3 : p.stepReq <;> simp [portOut, h1, h3]

/-- The `diag` port: what the transaction appended to the stream, and nothing under `rst`. -/
theorem portOut_diag_of_append {p : PortIn} {s t : State} {out : List DiagByte} (h : p.rst = false)
    (ht : t.diag = s.diag ++ out) : (portOut p s t).diag = out := by
  simp [portOut, h, ht]

end Sys2Proof.Machine
end

