-- ==== Sys2Proof/Tests/Slice0.lean ====
section
/-! SUPPORT. Tests: the check of WellFormed, words written out from the spec's encoding, vectors of
95_test_vectors.md (expected results from there, never from the model), and for each statement with hypotheses a
concrete case that meets them. -/

namespace Sys2Proof.Tests

open Sys2Proof.Machine Sys2Proof.Spec

/-! ### Helpers -/

/-- The reset state with bytes stored from an address up. -/
def place (s : State) : Nat → List Byte → State
  | _, [] => s
  | addr, v :: rest => place { s with mem := Memory.write s.mem addr v } (addr + 1) rest

/-- The reset state with an instruction at address 0. -/
def start (bytes : List Byte) : State := place State.reset 0 bytes

/-- What is seen of the next state, if there is one. -/
def seen {α : Type} (o : Host.Outcome State Fault Refusal) (f : State → α) : Option α :=
  match o with
  | .next t => some (f t)
  | .fault _ => none
  | .refused _ => none

/-! ### WellFormed -/

theorem test_wf_refuses_one_register : (Instr.incR 8).wf = false := by decide
theorem test_wf_refuses_register_destination : (Instr.addRR 8 0).wf = false := by decide
theorem test_wf_refuses_register_source : (Instr.addRR 0 255).wf = false := by decide
theorem test_wf_refuses_destination_of_load : (Instr.movRM 8 0).wf = false := by decide
theorem test_wf_refuses_destination_of_immediate : (Instr.cmpRI 9 0).wf = false := by decide
theorem test_wf_refuses_source_of_store : (Instr.movMR 0 8).wf = false := by decide
theorem test_wf_takes_every_offset_and_target : (Instr.movMI 255 255).wf && (Instr.jmpI 255).wf && (Instr.movRR 7 7).wf := by
  decide

/-! ### Words (30_encoding.md R40, R44, R47; the examples of 41 to 43) -/

theorem test_decode_hlt : decode 0x00 0xEE 0xDD = .ok (.hlt) := by decide
theorem test_decode_movRR : decode 0x01 0x01 0x00 = .ok (.movRR 0x01 0x00) := by decide
theorem test_decode_movRM : decode 0x02 0x00 0x05 = .ok (.movRM 0x00 0x05) := by decide
theorem test_decode_movRI : decode 0x03 0x00 0x05 = .ok (.movRI 0x00 0x05) := by decide
theorem test_decode_movMR : decode 0x04 0x10 0x00 = .ok (.movMR 0x10 0x00) := by decide
theorem test_decode_movMI : decode 0x05 0xFF 0x99 = .ok (.movMI 0xFF 0x99) := by decide
theorem test_decode_incR : decode 0x06 0x06 0xEE = .ok (.incR 0x06) := by decide
theorem test_decode_decR : decode 0x07 0x01 0xEE = .ok (.decR 0x01) := by decide
theorem test_decode_addRR : decode 0x08 0x00 0x01 = .ok (.addRR 0x00 0x01) := by decide
theorem test_decode_addRM : decode 0x09 0x00 0x05 = .ok (.addRM 0x00 0x05) := by decide
theorem test_decode_addRI : decode 0x0A 0x00 0x03 = .ok (.addRI 0x00 0x03) := by decide
theorem test_decode_subRR : decode 0x0B 0x00 0x01 = .ok (.subRR 0x00 0x01) := by decide
theorem test_decode_subRM : decode 0x0C 0x01 0x40 = .ok (.subRM 0x01 0x40) := by decide
theorem test_decode_subRI : decode 0x0D 0x00 0x01 = .ok (.subRI 0x00 0x01) := by decide
theorem test_decode_andRR : decode 0x0E 0x00 0x01 = .ok (.andRR 0x00 0x01) := by decide
theorem test_decode_andRM : decode 0x0F 0x00 0x30 = .ok (.andRM 0x00 0x30) := by decide
theorem test_decode_andRI : decode 0x10 0x00 0x0F = .ok (.andRI 0x00 0x0F) := by decide
theorem test_decode_orRR : decode 0x11 0x02 0x03 = .ok (.orRR 0x02 0x03) := by decide
theorem test_decode_orRM : decode 0x12 0x00 0x30 = .ok (.orRM 0x00 0x30) := by decide
theorem test_decode_orRI : decode 0x13 0x00 0x80 = .ok (.orRI 0x00 0x80) := by decide
theorem test_decode_xorRR : decode 0x14 0x00 0x07 = .ok (.xorRR 0x00 0x07) := by decide
theorem test_decode_xorRM : decode 0x15 0x00 0x40 = .ok (.xorRM 0x00 0x40) := by decide
theorem test_decode_xorRI : decode 0x16 0x00 0xFF = .ok (.xorRI 0x00 0xFF) := by decide
theorem test_decode_notR : decode 0x17 0x06 0xEE = .ok (.notR 0x06) := by decide
theorem test_decode_cmpRR : decode 0x18 0x00 0x01 = .ok (.cmpRR 0x00 0x01) := by decide
theorem test_decode_cmpRM : decode 0x19 0x00 0x30 = .ok (.cmpRM 0x00 0x30) := by decide
theorem test_decode_cmpRI : decode 0x1A 0x00 0x0A = .ok (.cmpRI 0x00 0x0A) := by decide
theorem test_decode_jmpI : decode 0x1B 0x40 0xEE = .ok (.jmpI 0x40) := by decide
theorem test_decode_jzI : decode 0x1C 0x20 0xEE = .ok (.jzI 0x20) := by decide
theorem test_decode_jnzI : decode 0x1D 0x03 0xEE = .ok (.jnzI 0x03) := by decide
theorem test_decode_jcI : decode 0x1E 0x30 0xEE = .ok (.jcI 0x30) := by decide
theorem test_decode_jncI : decode 0x1F 0x30 0xEE = .ok (.jncI 0x30) := by decide
theorem test_decode_jaI : decode 0x20 0x50 0xEE = .ok (.jaI 0x50) := by decide
theorem test_decode_jnaI : decode 0x21 0x50 0xEE = .ok (.jnaI 0x50) := by decide
theorem test_decode_unmapped_lowest : decode 0x22 0x00 0x00 = .error (.unmappedOpcode 0x22) := by decide
theorem test_decode_unmapped_highest : decode 0xFF 0x00 0x00 = .error (.unmappedOpcode 0xFF) := by decide
theorem test_encode_store : encode (.movMR 0x10 0x00) = [0x04, 0x10, 0x00] := by decide
theorem test_table_word : decodeTableWord 24 0x050003 = some (.movRI 0x00 0x05) := by decide
theorem test_table_word_short : decodeTableWord 8 0x0503 = some (.movRI 0x00 0x00) := by decide

/-! ### Vectors of 95_test_vectors.md -/

theorem test_V_HLT_1 :
    seen (step { (place State.reset 0x06 [0x00]) with ip := 0x06 }) (fun t => (t.ip, t.status)) = some (0x06, .halted) := by decide
theorem test_V_MOV_3 :
    seen (step { (place State.reset 0x10 [0x01, 0x00, 0x04]) with ip := 0x10 }) (fun t => (t.a, t.ip)) = some (0x13, 0x13) := by decide
theorem test_V_MOV_4 :
    seen (step { (place State.reset 0x00 [0x01, 0x06, 0x00]) with a := 0x07 }) (fun t => (t.fl, t.ip)) = some (0x07, 0x03) := by decide
theorem test_V_MOV_5 :
    seen (step { (place State.reset 0x00 [0x01, 0x04, 0x01]) with b := 0x40 }) (fun t => (t.ip, t.b)) = some (0x40, 0x40) := by decide
theorem test_V_MOV_6 :
    seen (step { (place (place State.reset 0x00 [0x02, 0x00, 0x05]) 0x25 [0x3C]) with ha := 0x20 }) (fun t => (t.a, t.ip)) = some (0x3C, 0x03) := by decide
theorem test_V_MOV_7 :
    seen (step { (place (place State.reset 0x00 [0x02, 0x07, 0xFF]) 0x1FE [0x11]) with ha := 0xFF }) (fun t => (t.ha, t.ip)) = some (0x11, 0x03) := by decide
theorem test_V_MOV_9 :
    seen (step { (place State.reset 0x00 [0x03, 0x06, 0x00]) with fl := 0x07 }) (fun t => (t.fl, t.ip)) = some (0x00, 0x03) := by decide
theorem test_V_MOV_11 :
    seen (step { (place State.reset 0x20 [0x04, 0x00, 0x04]) with ip := 0x20 }) (fun t => (Memory.read t.mem 0, t.ip)) = some (0x23, 0x23) := by decide
theorem test_V_MOV_10 :
    seen (step { (place State.reset 0x00 [0x04, 0x10, 0x00]) with a := 0x42 }) (fun t => (Memory.read t.mem 0x10, t.ip)) = some (0x42, 0x03) := by decide
theorem test_V_MOV_13 :
    seen (step { (place State.reset 0x00 [0x05, 0xFF, 0x99]) with ha := 0xFF }) (fun t => (Memory.read t.mem 0x1FE, t.ip)) = some (0x99, 0x03) := by decide
theorem test_V_MOV_14 :
    seen (step (place State.reset 0x00 [0x05, 0x01, 0x00])) (fun t => (Memory.read t.mem 1, Memory.read t.mem 0)) = some (0x00, 0x05) := by decide
theorem test_V_MOV_15 :
    seen (step (place State.reset 0x00 [0x03, 0x08, 0x05])) (fun t => (t.fl, t.ip, t.status)) = some (0x04, 0x00, .faulted .invalidRegisterId) := by decide
theorem test_V_MOV_17 :
    seen (step { (place (place State.reset 0xFE [0x03]) 0x00 [0x05]) with ip := 0xFE }) (fun t => (t.a, t.ip)) = some (0x05, 0x01) := by decide
theorem test_V_INC_2 :
    seen (step { (place State.reset 0x00 [0x06, 0x00]) with a := 0xFF }) (fun t => (t.a, t.fl)) = some (0x00, 0x02) := by decide
theorem test_V_INC_3 :
    seen (step { (place State.reset 0x00 [0x06, 0x06]) with fl := 0xFF }) (fun t => (t.fl, t.ip)) = some (0x00, 0x02) := by decide
theorem test_V_DEC_2 :
    seen (step (place State.reset 0x00 [0x07, 0x00])) (fun t => (t.a, t.fl)) = some (0xFF, 0x02) := by decide
theorem test_V_DEC_3 :
    seen (step { (place State.reset 0x00 [0x07, 0x01]) with b := 0x80, fl := 0x03 }) (fun t => (t.b, t.fl)) = some (0x7F, 0x00) := by decide
theorem test_V_ADD_4 :
    seen (step { (place State.reset 0x00 [0x0A, 0x00, 0x01]) with a := 0xFF }) (fun t => (t.a, t.fl)) = some (0x00, 0x02) := by decide
theorem test_V_ADD_7 :
    seen (step { (place (place State.reset 0x00 [0x09, 0x00, 0x10]) 0x20 [0x02]) with a := 0x01, ha := 0x10 }) (fun t => (t.a, t.fl)) = some (0x03, 0x00) := by decide
theorem test_V_ADD_8 :
    seen (step { (place State.reset 0x00 [0x08, 0x06, 0x00]) with a := 0x01, fl := 0x01 }) (fun t => (t.fl, t.a)) = some (0x02, 0x01) := by decide
theorem test_V_ADD_9 :
    seen (step { (place State.reset 0x00 [0x0A, 0x00, 0x01]) with a := 0x01, fl := 0x04 }) (fun t => (t.a, t.fl)) = some (0x02, 0x04) := by decide
theorem test_V_SUB_3 :
    seen (step (place State.reset 0x00 [0x0D, 0x00, 0x01])) (fun t => (t.a, t.fl)) = some (0xFF, 0x02) := by decide
theorem test_V_SUB_4 :
    seen (step { (place State.reset 0x00 [0x0B, 0x00, 0x01]) with a := 0x10, b := 0xFF }) (fun t => (t.a, t.fl)) = some (0x11, 0x02) := by decide
theorem test_V_SUB_5 :
    seen (step { (place State.reset 0x00 [0x0C, 0x01, 0x00]) with b := 0x09 }) (fun t => (t.b, t.fl)) = some (0xFD, 0x02) := by decide
theorem test_V_AND_2 :
    seen (step { (place State.reset 0x00 [0x10, 0x00, 0x0F]) with a := 0xF0, fl := 0x02 }) (fun t => (t.a, t.fl)) = some (0x00, 0x01) := by decide
theorem test_V_AND_3 :
    seen (step { (place State.reset 0x00 [0x0E, 0x00, 0x01]) with a := 0xFF, b := 0x81 }) (fun t => (t.a, t.fl)) = some (0x81, 0x00) := by decide
theorem test_V_AND_4 :
    seen (step { (place (place State.reset 0x00 [0x0F, 0x00, 0x02]) 0x32 [0xAA]) with a := 0x0F, ha := 0x30 }) (fun t => (t.a, t.fl)) = some (0x0A, 0x00) := by decide
theorem test_V_OR_2 :
    seen (step (place State.reset 0x00 [0x13, 0x00, 0x00])) (fun t => (t.a, t.fl)) = some (0x00, 0x01) := by decide
theorem test_V_OR_3 :
    seen (step { (place State.reset 0x00 [0x11, 0x02, 0x03]) with c := 0x01, d := 0x80 }) (fun t => (t.c, t.fl)) = some (0x81, 0x00) := by decide
theorem test_V_OR_4 :
    seen (step { (place State.reset 0x00 [0x12, 0x00, 0x00]) with a := 0x01 }) (fun t => (t.a, t.fl)) = some (0x13, 0x00) := by decide
theorem test_V_XOR_1 :
    seen (step { (place State.reset 0x00 [0x16, 0x00, 0xFF]) with a := 0x0F }) (fun t => (t.a, t.fl)) = some (0xF0, 0x00) := by decide
theorem test_V_XOR_2 :
    seen (step { (place State.reset 0x00 [0x14, 0x00, 0x00]) with a := 0x5A }) (fun t => (t.a, t.fl)) = some (0x00, 0x01) := by decide
theorem test_V_XOR_3 :
    seen (step { (place (place State.reset 0x00 [0x15, 0x00, 0x40]) 0x40 [0x33]) with a := 0x33 }) (fun t => (t.a, t.fl)) = some (0x00, 0x01) := by decide
theorem test_V_NOT_1 :
    seen (step { (place State.reset 0x00 [0x17, 0x00]) with a := 0x0F, fl := 0x02 }) (fun t => (t.a, t.fl)) = some (0xF0, 0x02) := by decide
theorem test_V_NOT_3 :
    seen (step { (place State.reset 0x00 [0x17, 0x06]) with fl := 0x04 }) (fun t => (t.fl, t.ip)) = some (0xFB, 0x02) := by decide
theorem test_V_CMP_3 :
    seen (step { (place State.reset 0x00 [0x1A, 0x00, 0x04]) with a := 0x05, fl := 0x03 }) (fun t => (t.a, t.fl)) = some (0x05, 0x00) := by decide
theorem test_V_CMP_4 :
    seen (step { (place State.reset 0x00 [0x18, 0x00, 0x01]) with b := 0xFF }) (fun t => (t.a, t.fl)) = some (0x00, 0x02) := by decide
theorem test_V_CMP_5 :
    seen (step { (place State.reset 0x00 [0x19, 0x00, 0x00]) with a := 0x19 }) (fun t => (t.a, t.fl)) = some (0x19, 0x01) := by decide
theorem test_V_JMP_1 :
    seen (step { (place State.reset 0x10 [0x1B, 0x40]) with ip := 0x10 }) (fun t => t.ip) = some 0x40 := by decide
theorem test_V_JZ_1 :
    seen (step { (place State.reset 0x00 [0x1C, 0x20]) with fl := 0x01 }) (fun t => t.ip) = some 0x20 := by decide
theorem test_V_JZ_3 :
    seen (step { (place State.reset 0xFE [0x1C, 0x20]) with ip := 0xFE }) (fun t => t.ip) = some 0x00 := by decide
theorem test_V_JNZ_1 :
    seen (step (place State.reset 0x00 [0x1D, 0x20])) (fun t => t.ip) = some 0x20 := by decide
theorem test_V_JNZ_2 :
    seen (step { (place State.reset 0x00 [0x1D, 0x20]) with fl := 0x01 }) (fun t => t.ip) = some 0x02 := by decide
theorem test_V_JC_1 :
    seen (step { (place State.reset 0x00 [0x1E, 0x20]) with fl := 0x02 }) (fun t => t.ip) = some 0x20 := by decide
theorem test_V_JC_2 :
    seen (step { (place State.reset 0x00 [0x1E, 0x20]) with fl := 0x05 }) (fun t => t.ip) = some 0x02 := by decide
theorem test_V_JNC_1 :
    seen (step { (place State.reset 0x00 [0x1F, 0x20]) with fl := 0x01 }) (fun t => t.ip) = some 0x20 := by decide
theorem test_V_JNC_2 :
    seen (step { (place State.reset 0x00 [0x1F, 0x20]) with fl := 0x02 }) (fun t => t.ip) = some 0x02 := by decide
theorem test_V_JA_1 :
    seen (step (place State.reset 0x00 [0x20, 0x20])) (fun t => t.ip) = some 0x20 := by decide
theorem test_V_JA_4 :
    seen (step { (place State.reset 0x00 [0x20, 0x20]) with fl := 0x03 }) (fun t => t.ip) = some 0x02 := by decide
theorem test_V_JNA_1 :
    seen (step { (place State.reset 0x00 [0x21, 0x20]) with fl := 0x02 }) (fun t => t.ip) = some 0x20 := by decide
theorem test_V_JNA_3 :
    seen (step { (place State.reset 0x00 [0x21, 0x20]) with fl := 0x04 }) (fun t => t.ip) = some 0x02 := by decide
theorem test_V_FLT_2 :
    seen (step { (place State.reset 0x00 [0xFF]) with a := 0x01, fl := 0x03 }) (fun t => (t.fl, t.ip, t.status)) = some (0x07, 0x00, .faulted .unmappedOpcode) := by decide

/-! ### Witnesses: for each statement with hypotheses, a state and operands that meet them

The lowest and the highest register id that name no slot are 8 and 255; expected results are the rules' own. -/

/-- The status a meaning leaves. -/
def statusAfter (o : Host.Outcome State Fault Refusal) : Option RunStatus := seen o (fun t => t.status)

/-- Whether the meanings of an instruction with the lowest and with the highest bad register id both fault. -/
def badIdsFault (mk : Byte → Instr) : Bool :=
  statusAfter (exec (mk 8) State.reset) == some (.faulted .invalidRegisterId) &&
  statusAfter (exec (mk 255) State.reset) == some (.faulted .invalidRegisterId)

/-- What the three forms of one operation leave in `A`, `FL` and `IP`, with `A` and the source as given. -/
def threeForms (rr rm ri : Byte → Byte → Instr) (a b : Byte) : List (Option (Byte × Byte × Byte)) :=
  let s := { (place State.reset 0x20 [b]) with a := a, b := b, ha := 0x10 }
  [rr 0 1, rm 0 0x10, ri 0 b].map fun i => seen (exec i s) fun t => (t.a, t.fl, t.ip)

theorem witness_bad_register_ids : 8 ≤ (8 : Byte).toNat ∧ 8 ≤ (255 : Byte).toNat := by decide

theorem witness_MovIntoRegister :
    threeForms .movRR .movRM .movRI 1 2 = [some (2, 0, 3), some (2, 0, 3), some (2, 0, 3)] ∧
    badIdsFault (.movRR · 0) ∧ badIdsFault (.movRR 0 ·) ∧ badIdsFault (.movRM · 0) ∧ badIdsFault (.movRI · 0) := by decide
theorem witness_MovIntoMemory :
    MemoryCanonical State.reset ∧
    seen (exec (.movMR 0xFF 0) { State.reset with a := 7, ha := 0xFF }) (fun t => Memory.read t.mem 510) = some 7 ∧
    seen (exec (.movMI 0 9) State.reset) (fun t => Memory.read t.mem 0) = some 9 ∧ badIdsFault (.movMR 0 ·) := by
  unfold MemoryCanonical; decide
theorem witness_IncAndDec :
    seen (exec (.incR 0) { State.reset with a := 255 }) (fun t => (t.a, t.fl, t.ip)) = some (0, 2, 2) ∧
    seen (exec (.decR 0) { State.reset with a := 1 }) (fun t => (t.a, t.fl, t.ip)) = some (0, 1, 2) ∧
    seen (exec (.incR 4) State.reset) (fun t => (t.ip, t.fl)) = some (3, 0) ∧
    seen (exec (.decR 6) State.reset) (fun t => (t.ip, t.fl)) = some (2, 255) ∧
    badIdsFault .incR ∧ badIdsFault .decR := by decide
theorem witness_AddInThreeForms :
    threeForms .addRR .addRM .addRI 255 1 = [some (0, 2, 3), some (0, 2, 3), some (0, 2, 3)] ∧
    badIdsFault (.addRR · 0) ∧ badIdsFault (.addRR 0 ·) ∧ badIdsFault (.addRM · 0) ∧ badIdsFault (.addRI · 0) := by decide
theorem witness_SubInThreeForms :
    threeForms .subRR .subRM .subRI 0 1 = [some (255, 2, 3), some (255, 2, 3), some (255, 2, 3)] ∧
    badIdsFault (.subRR · 0) ∧ badIdsFault (.subRR 0 ·) ∧ badIdsFault (.subRM · 0) ∧ badIdsFault (.subRI · 0) := by decide
theorem witness_AndInThreeForms :
    threeForms .andRR .andRM .andRI 0xF0 0x0F = [some (0, 1, 3), some (0, 1, 3), some (0, 1, 3)] ∧
    badIdsFault (.andRR · 0) ∧ badIdsFault (.andRR 0 ·) ∧ badIdsFault (.andRM · 0) ∧ badIdsFault (.andRI · 0) := by decide
theorem witness_OrInThreeForms :
    threeForms .orRR .orRM .orRI 0xF0 0x01 = [some (0xF1, 0, 3), some (0xF1, 0, 3), some (0xF1, 0, 3)] ∧
    badIdsFault (.orRR · 0) ∧ badIdsFault (.orRR 0 ·) ∧ badIdsFault (.orRM · 0) ∧ badIdsFault (.orRI · 0) := by decide
theorem witness_XorInThreeForms :
    threeForms .xorRR .xorRM .xorRI 0x5A 0x5A = [some (0, 1, 3), some (0, 1, 3), some (0, 1, 3)] ∧
    badIdsFault (.xorRR · 0) ∧ badIdsFault (.xorRR 0 ·) ∧ badIdsFault (.xorRM · 0) ∧ badIdsFault (.xorRI · 0) := by decide
theorem witness_NotComplementsWithoutFlags :
    seen (exec (.notR 6) { State.reset with fl := 0x0F }) (fun t => t.fl) = some 0xF0 ∧ badIdsFault .notR := by decide
theorem witness_CmpInThreeForms :
    threeForms .cmpRR .cmpRM .cmpRI 3 5 = [some (3, 2, 3), some (3, 2, 3), some (3, 2, 3)] ∧
    badIdsFault (.cmpRR · 0) ∧ badIdsFault (.cmpRR 0 ·) ∧ badIdsFault (.cmpRM · 0) ∧ badIdsFault (.cmpRI · 0) := by decide

/-- The flags of a state with `FL` as given: what the jumps' clauses ask. -/
def withFlags (fl : Byte) : State := { State.reset with fl := fl }

/-- `JMP_I` has the one clause, taken. -/
theorem witness_JmpGoesToItsOperand : seen (exec (.jmpI 255) State.reset) (fun t => t.ip) = some 255 := by decide
/-- States for taken and not taken of each of the six conditions. -/
theorem witness_ConditionalJumps :
    (Zset (withFlags 1) ∧ ¬ Zset (withFlags 0)) ∧ (Cset (withFlags 2) ∧ ¬ Cset (withFlags 0)) ∧
    (¬ Zset (withFlags 4) ∧ ¬ Cset (withFlags 4)) ∧ (Zset (withFlags 3) ∧ Cset (withFlags 3)) ∧
    (Zset (withFlags 1) ∧ ¬ Cset (withFlags 1)) ∧ (¬ Zset (withFlags 2) ∧ Cset (withFlags 2)) := by
  unfold Zset Cset; decide
/-- Operands equal, below and above, and a sum of exactly 256, as register, memory byte and immediate; and the bound at
its lowest and highest target. -/
theorem witness_JumpsFollowTheConditionTable :
    let s : State := { (place State.reset 0x20 [1]) with a := 255, b := 1, ha := 0x10 }
    (defaultConfig.jumpBound 0 = true ∧ defaultConfig.jumpBound 255 = true) ∧
    (operand s 3 .a).toNat + (operand s 3 .b).toNat = 256 ∧ Reg.a ≠ .ip ∧ Reg.a ≠ .fl ∧
    (operand s 3 .a).toNat + (Memory.read s.mem (s.ha.toNat + (0x10 : Byte).toNat)).toNat = 256 ∧
    (operand s 3 .a).toNat + (1 : Byte).toNat = 256 ∧
    operand s 3 .c = operand s 3 .d ∧ operand s 3 .b < operand s 3 .a ∧ ¬ operand s 3 .a < operand s 3 .b := by decide

theorem witness_OperateSetsZAndCFromTheUnclampedResult :
    (7 ≠ (defaultConfig.flagBits.bitOf .z).val ∧ 7 ≠ (defaultConfig.flagBits.bitOf .c).val) ∧ Reg.ha ≠ .fl ∧
    (operate defaultConfig 255 State.reset).1 = 255 ∧ (operate defaultConfig (-1) State.reset).1 = 255 := by decide
theorem witness_DestinationIsWrittenAfterTheFlags :
    Reg.a ≠ .fl ∧ (operateInto defaultConfig .a 0 State.reset).fl = 1 ∧
    (operateInto defaultConfig .fl 0 State.reset).fl = 0 := by decide

/-- A running machine at an unmapped opcode. -/
def atUnmapped : State := start [0x22]

/-- The default configuration with a bound that rejects every target. -/
def noTarget : Config := { defaultConfig with jumpBound := fun _ => false }

theorem witness_FaultEntryRestoresAndSetsErr :
    Reg.ip ≠ .fl ∧ atUnmapped.status = .running ∧
    ∃ t, stepWith defaultConfig atUnmapped = .next t ∧ t.status = .faulted .unmappedOpcode :=
  ⟨by decide, by decide, _, rfl, rfl⟩
theorem test_stream_is_never_shorter_than_the_window (cfg : Config) (kind : FaultKind) (m : Memory) :
    4096 ≤ (diagStream cfg kind m).length := by
  rw [← List.length_map (f := DiagByte.data), diagStream, map_data_markLast]
  simp [diagWindow, diagLen]
/-- The first and the last byte of the window; and one step of each of the three ends. -/
theorem witness_DiagnosticStreamIsWindowThenMessage :
    (∃ e, (diagStream defaultConfig .unmappedOpcode [])[0]? = some e) ∧
    (∃ e, (diagStream defaultConfig .unmappedOpcode [])[4095]? = some e) ∧
    (∃ t, stepWith defaultConfig (start [0x1B, 0x00]) = .next t ∧ t.status = .running) ∧
    (∃ t, stepWith defaultConfig (start [0x00]) = .next t ∧ t.status = .halted) ∧
    ∃ t, stepWith defaultConfig atUnmapped = .next t ∧ t.status = .faulted .unmappedOpcode :=
  have h := test_stream_is_never_shorter_than_the_window defaultConfig .unmappedOpcode []
  ⟨⟨_, List.getElem?_eq_getElem (by omega)⟩, ⟨_, List.getElem?_eq_getElem (by omega)⟩,
    ⟨_, rfl, rfl⟩, ⟨_, rfl, rfl⟩, ⟨_, rfl, rfl⟩⟩
/-- Both branches of each condition, at the lowest and highest target. -/
theorem witness_RejectedTargetFaultsOnlyWhenTaken :
    noTarget.jumpBound (0 : Byte).toNat = false ∧ noTarget.jumpBound (255 : Byte).toNat = false ∧
    (withFlags 1).flag noTarget .z = true ∧ (withFlags 0).flag noTarget .z = false ∧
    (withFlags 2).flag noTarget .c = true ∧ (withFlags 0).flag noTarget .c = false := by decide

theorem witness_EncodeOfDecodeUnderEveryMap :
    decodeWith defaultOpcodeMap 0x00 0xFF 0xFF = .ok .hlt ∧ decodeWith defaultOpcodeMap 0x21 0xFF 0xFF = .ok (.jnaI 0xFF) ∧
    decodeWith defaultOpcodeMap 0x05 0xFF 0xFF = .ok (.movMI 0xFF 0xFF) := by decide
/-- The lowest and the highest unmapped byte, at a running machine's `IP`. -/
theorem witness_UnmappedOpcodesFault :
    atUnmapped.status = .running ∧ 0x22 ≤ (Memory.read atUnmapped.mem atUnmapped.ip.toNat).toNat ∧
    0x22 ≤ (Memory.read (start [0xFF]).mem 0).toNat ∧
    ∀ o ∈ Op.all, defaultOpcodeMap.byteOf o ≠ Memory.read atUnmapped.mem atUnmapped.ip.toNat := by decide

theorem witness_StepRunsTheDecodedInstruction :
    (start [0x03, 0x00, 0x05]).status = .running ∧ fetched (start [0x03, 0x00, 0x05]) = .ok (.movRI 0 5) := by decide
theorem witness_PlacedWordIsWhatTheNextStepRuns :
    MemoryCanonical State.reset ∧ decodeTableWord 24 0x050003 = some (.movRI 0x00 0x05) ∧
    seen (step (State.reset.withFetchWord 24 0x050003)) (fun t => (t.a, t.ip)) = some (5, 3) := by
  unfold MemoryCanonical; decide
/-- A halted and a faulted machine, a request, no request and a reset. -/
theorem witness_EndedRunsStayEnded :
    ({ State.reset with status := .halted } : State).status ≠ .running ∧
    ({ State.reset with status := .faulted .unmappedOpcode } : State).status ≠ .running ∧
    stepInput.rst = false ∧ stepInput.stepReq = true ∧ rstInput.rst = true ∧
    ({ rstInput with rst := false } : PortIn).stepReq = false := by decide
/-- The four results a step can have. -/
theorem witness_StepResultIsDecidedByTheInstruction :
    fetched (start [0x00]) = .ok .hlt ∧ fetched atUnmapped = .error (.unmappedOpcode 0x22) ∧
    (fetched (start [0x06, 0x08]) = .ok (.incR 8) ∧ (Instr.incR 8).wf = false) ∧
    (fetched (start [0x06, 0x07]) = .ok (.incR 7) ∧ (Instr.incR 7).wf = true) ∧ (start [0x00]).status = .running := by decide
theorem witness_JumpToItselfNeverEnds :
    (start [0x1B, 0x00]).status = .running ∧ fetched (start [0x1B, 0x00]) = .ok (.jmpI (start [0x1B, 0x00]).ip) := by decide

theorem witness_StepKeepsMemoryCanonical :
    MemoryCanonical (start [0x05, 0xFF, 0x99]) ∧ (∃ t, step (start [0x05, 0xFF, 0x99]) = .next t) ∧
    ∃ t, stepWith defaultConfig (start [0x05, 0xFF, 0x99]) = .next t :=
  ⟨by unfold MemoryCanonical; decide, ⟨_, rfl⟩, ⟨_, rfl⟩⟩
theorem witness_StepKeepsTheFaultReportConsistent :
    ReportConsistent defaultConfig atUnmapped ∧ (∃ t, step atUnmapped = .next t) ∧
    ∃ t, stepWith defaultConfig atUnmapped = .next t :=
  ⟨rfl, ⟨_, rfl⟩, ⟨_, rfl⟩⟩

theorem witness_RegistersChangeOnlyAsDestinations :
    ∃ t, step (start [0x03, 0x05, 0x01]) = .next t ∧ Reg.sp ≠ .ip ∧ Reg.sp ≠ .fl ∧
      t.readReg .sp ≠ (start [0x03, 0x05, 0x01]).readReg .sp :=
  ⟨_, rfl, by decide⟩
theorem witness_UnnamedRegistersAreNotUsed :
    Reg.sp ≠ .ip ∧ Reg.sp ≠ .fl ∧ Reg.sp ≠ .ha ∧ defaultRegId .sp ∉ (Instr.addRM 0 5).regIds ∧
    ∃ t, exec (.addRM 0 5) State.reset = .next t :=
  ⟨by decide, by decide, by decide, by decide, _, rfl⟩
/-- Each of the three ways a flag bit changes. -/
theorem witness_FlagBitsChangeOnlyByTheirWriters :
    (∃ t, step (start [0x17, 0x06]) = .next t ∧ t.fl.getLsbD 7 ≠ (start [0x17, 0x06]).fl.getLsbD 7) ∧
    (∃ t, step (start [0x1A, 0x00, 0x01]) = .next t ∧ t.fl.getLsbD 1 ≠ (start [0x1A, 0x00, 0x01]).fl.getLsbD 1) ∧
    ∃ t, step atUnmapped = .next t ∧ t.fl.getLsbD 2 ≠ atUnmapped.fl.getLsbD 2 :=
  ⟨⟨_, rfl, by decide⟩, ⟨_, rfl, by decide⟩, ⟨_, rfl, by decide⟩⟩
theorem witness_ErrDoesNotSteerExecution :
    (Instr.jaI 5).wf = true ∧ defaultRegId .fl ∉ (Instr.jaI 5).regIds ∧ (Instr.addRI 7 5).wf = true ∧
    defaultRegId .fl ∉ (Instr.addRI 7 5).regIds ∧ ∃ t, exec (.addRI 7 5) State.reset = .next t :=
  ⟨by decide, by decide, by decide, by decide, _, rfl⟩
theorem witness_StoresStayBelow511 : (∃ t, step (start [0x05, 0xFF, 0x99]) = .next t) ∧ 511 ≤ 511 := ⟨⟨_, rfl⟩, by decide⟩
/-- Two memories that differ at 511 only. -/
theorem witness_HighMemoryIsNotRead :
    MemoryCanonical (start [0x1B]) ∧ Memory.wf [(0, 0x1B), (511, 1)] = true ∧
    (∀ x, x < 511 → Memory.read [(0, 0x1B), (511, 1)] x = Memory.read (start [0x1B]).mem x) ∧
    ∃ t, step (start [0x1B]) = .next t ∧ ∀ kind, t.status ≠ .faulted kind := by
  refine ⟨by unfold MemoryCanonical; decide, by decide, fun x hx => ?_, _, rfl,
    fun kind h => by cases kind <;> exact absurd h (by decide)⟩
  show (if x = 0 then _ else if x = 511 then _ else _) = if x = 0 then _ else _
  rw [if_neg (by omega : x ≠ 511)]
/-- A store over the next instruction's opcode, and one over the storing instruction itself. -/
theorem witness_StoresAreSeenByTheNextFetch :
    MemoryCanonical (start [0x05, 0x03, 0x06]) ∧ (start [0x05, 0x03, 0x06]).status = .running ∧
    fetched (start [0x05, 0x03, 0x06]) = .ok (.movMI 0x03 0x06) ∧
    fetched (start [0x04, 0x03, 0x00]) = .ok (.movMR 0x03 (defaultRegId .a)) ∧
    (0 + 3 + 0) % 256 = 0x03 ∧ (0 + 3 + 253) % 256 = 0 := by
  unfold MemoryCanonical; decide
theorem witness_OnlyTheStreamDependsOnTheFaultMessage : ∃ t, stepWith defaultConfig atUnmapped = .next t := ⟨_, rfl⟩

/-- An image of three bytes and one that fills memory. -/
theorem witness_LaunchLoadsTheImage :
    MemoryCanonical State.reset ∧ [(0x03 : Byte), 0x00, 0x05].length ≤ 65536 ∧
    (List.replicate 65536 (1 : Byte)).length ≤ 65536 ∧ 0 < [(0x03 : Byte), 0x00, 0x05].length :=
  ⟨rfl, by decide, Nat.le_of_eq List.length_replicate, by decide⟩
/-- One byte too many, and the longest that fits. -/
theorem witness_TooLongAnImageIsRefused :
    65536 < (List.replicate 65537 (0 : Byte)).length ∧ (List.replicate 65536 (0 : Byte)).length ≤ 65536 := by
  rw [List.length_replicate, List.length_replicate]; omega
/-- The inputs of the clauses, the load port's highest address, and a request that ends in each of the statuses. -/
theorem witness_PortsFollowTheirTable :
    (rstInput.rst = true ∧ rstInput.loadWe = false) ∧
    ((loadInput 65535 1).rst = true ∧ (loadInput 65535 1).loadWe = true ∧ (loadInput 65535 1).loadAddr.toNat = 65535) ∧
    ((⟨false, true, 0, 1, false, 0⟩ : PortIn).rst = false ∧ (⟨false, true, 0, 1, false, 0⟩ : PortIn).stepReq = false) ∧
    (stepInput.rst = false ∧ stepInput.stepReq = true) ∧ MemoryCanonical State.reset ∧
    ((start [0x1B]).status = .running ∧ statusAfter (step (start [0x1B])) = some .running) ∧
    statusAfter (step (start [0x00])) = some .halted ∧
    statusAfter (step atUnmapped) = some (.faulted .unmappedOpcode) ∧
    (withFlags 0).status = .running ∧ ({ withFlags 0 with status := .halted } : State).status ≠ .running := by
  unfold MemoryCanonical; decide

end Sys2Proof.Tests
end

section
/-! What a step can end in, said once, and the invariants and frames that follow from it: O31, O33, O35 and O37. -/

namespace Sys2Proof.Machine

/-! ### What an instruction that completes may change -/

/-- The frame of an instruction that runs to its end: status and stream stay, memory changes by at most one store at a
memory operand's address, a slot other than `IP` and `FL` changes only as the destination, and a bit of `FL` only if
`FL` is the destination or the bit is `Z` or `C` and the instruction calls `operate`. -/
structure Completes (cfg : Config) (i : Instr) (s t : State) : Prop where
  status : t.status = s.status
  diag : t.diag = s.diag
  mem : t.mem = s.mem ∨ ∃ addr v, addr < 511 ∧ t.mem = Memory.write s.mem addr v
  reg : ∀ r, r ≠ .ip → r ≠ .fl → t.readReg r ≠ s.readReg r → i.destination = some (cfg.regIdMap.idOf r)
  flBit : ∀ k, t.fl.getLsbD k ≠ s.fl.getLsbD k → i.destination = some (cfg.regIdMap.idOf .fl) ∨
    i.callsOperate = true ∧ (k = (cfg.flagBits.bitOf .z).val ∨ k = (cfg.flagBits.bitOf .c).val)

/-- How an instruction started in `s` ends: `HLT` halts in place, another completes, or a fault is raised (R53, R59). -/
inductive Ends (cfg : Config) (i : Instr) (s : State) : State → Prop
  | halts (hi : i = .hlt) : Ends cfg i s { s with status := .halted }
  | completes {t : State} (h : Completes cfg i s t) : Ends cfg i s t
  | faults (kind : FaultKind) : Ends cfg i s (raiseFault cfg kind s)

variable {cfg : Config} {i : Instr} {s t : State}

/-- Advancing `IP` is within every instruction's frame. -/
theorem Completes.advance (n : Nat) : Completes cfg i s (s.advance n) where
  status := rfl
  diag := rfl
  mem := .inl rfl
  reg := fun _ hip _ hne => absurd (State.readReg_advance_of_ne s n hip) hne
  flBit := fun _ hne => absurd rfl hne

/-- Writing the destination stays within the frame. -/
theorem Completes.writeReg (h : Completes cfg i s t) {rd : Reg} (hd : i.destination = some (cfg.regIdMap.idOf rd))
    (v : Byte) : Completes cfg i s (t.writeReg rd v) where
  status := by rw [State.writeReg_status, h.status]
  diag := by rw [State.writeReg_diag, h.diag]
  mem := by rw [State.writeReg_mem]; exact h.mem
  reg r hip hfl hne := by
    by_cases hr : r = rd
    · rw [hr, hd]
    · rw [State.readReg_writeReg_of_ne t v hr] at hne
      exact h.reg r hip hfl hne
  flBit k hne := by
    by_cases hr : rd = .fl
    · exact .inl (hr ▸ hd)
    · rw [State.writeReg_fl_of_ne t v hr] at hne
      exact h.flBit k hne

/-- Setting `IP` stays within the frame. -/
theorem Completes.writeReg_ip (h : Completes cfg i s t) (v : Byte) : Completes cfg i s (t.writeReg .ip v) where
  status := h.status
  diag := h.diag
  mem := h.mem
  reg r hip hfl hne := h.reg r hip hfl (by rwa [State.readReg_writeReg_of_ne t v hip] at hne)
  flBit := h.flBit

/-- Calling `operate` stays within the frame of an instruction that may (R16, R55). -/
theorem Completes.operate (h : Completes cfg i s t) (hop : i.callsOperate = true) (x : Int) :
    Completes cfg i s (operate cfg x t).2 where
  status := by rw [operate_status, h.status]
  diag := by rw [operate_diag, h.diag]
  mem := by rw [operate_mem]; exact h.mem
  reg r hip hfl hne := h.reg r hip hfl (by rwa [readReg_operate_of_ne cfg x t hfl] at hne)
  flBit k hne := by
    by_cases hz : k = (cfg.flagBits.bitOf .z).val
    · exact .inr ⟨hop, .inl hz⟩
    by_cases hc : k = (cfg.flagBits.bitOf .c).val
    · exact .inr ⟨hop, .inr hc⟩
    rw [operate_fl_bit, if_neg hz, if_neg hc] at hne
    exact h.flBit k hne

/-- A store at a memory operand's address stays within the frame of an instruction that has stored nothing yet. -/
theorem Completes.store (h : Completes cfg i s t) (m : Offset) (v : Byte) :
    Completes cfg i s { t with mem := Memory.write s.mem (effectiveAddress s m) v } where
  status := h.status
  diag := h.diag
  mem := .inr ⟨_, v, effectiveAddress_lt s m, rfl⟩
  reg := fun r => by cases r <;> exact h.reg _
  flBit := h.flBit

/-- Every instruction answers a next state, and ends in one of the three ways. -/
theorem execWith_ends (cfg : Config) (i : Instr) (s : State) : ∃ t, execWith cfg i s = .next t ∧ Ends cfg i s t := by
  refine execWith_by_shape cfg (P := fun i run => ∃ t, run s = .next t ∧ Ends cfg i s t)
    ?halt ?move ?store ?byOne ?compl ?alu ?cmp ?branch i
  case halt => exact ⟨_, rfl, .halts rfl⟩
  case move =>
    intro i d src _ hd _
    obtain ⟨rd, v, rfl, -, hrun⟩ | ⟨-, hrun⟩ := moveInto_cases cfg d src s
    · exact ⟨_, hrun, .completes ((Completes.advance 3).writeReg hd v)⟩
    · exact ⟨_, hrun, .faults _⟩
  case store =>
    intro i m src _ _ _
    obtain ⟨v, -, hrun⟩ | ⟨-, hrun⟩ := storeTo_cases cfg m src s
    · exact ⟨_, hrun, .completes ((Completes.advance 3).store m v)⟩
    · exact ⟨_, hrun, .faults _⟩
  case byOne =>
    intro i f r _ hd hop _
    obtain ⟨rr, rfl, hrun⟩ | ⟨-, hrun⟩ := aluByOne_cases cfg f r s
    · exact ⟨_, hrun, .completes (((Completes.advance 2).operate hop _).writeReg hd _)⟩
    · exact ⟨_, hrun, .faults _⟩
  case compl =>
    intro i r _ hd _
    obtain ⟨rr, rfl, hrun⟩ | ⟨-, hrun⟩ := complement_cases cfg r s
    · exact ⟨_, hrun, .completes ((Completes.advance 2).writeReg hd _)⟩
    · exact ⟨_, hrun, .faults _⟩
  case alu =>
    intro i f d src _ hd hop _
    obtain ⟨rd, v, rfl, -, hrun⟩ | ⟨-, hrun⟩ := aluInto_cases cfg f d src s
    · exact ⟨_, hrun, .completes (((Completes.advance 3).operate hop _).writeReg hd _)⟩
    · exact ⟨_, hrun, .faults _⟩
  case cmp =>
    intro i a src _ _ hop _
    obtain ⟨ra, v, -, -, hrun⟩ | ⟨-, hrun⟩ := compareWith_cases cfg a src s
    · exact ⟨_, hrun, .completes ((Completes.advance 3).operate hop _)⟩
    · exact ⟨_, hrun, .faults _⟩
  case branch =>
    intro i cond a _ _ _
    obtain ⟨-, hrun⟩ | ⟨-, hrun⟩ | ⟨-, hrun⟩ := jumpIf_cases cfg (cond (s.flag cfg .z) (s.flag cfg .c)) a s
    · exact ⟨_, hrun, .completes ((Completes.advance 2).writeReg_ip a)⟩
    · exact ⟨_, hrun, .faults _⟩
    · exact ⟨_, hrun, .completes (Completes.advance 2)⟩

/-! ### What a step can end in -/

/-- How a step request to `s` ends: nothing happens after the run's end (R49), the fetched instruction ends in one of
its ways, or the opcode is unmapped (R45). -/
inductive StepEnds (cfg : Config) (s : State) : State → Prop
  | idle (hs : s.status ≠ .running) : StepEnds cfg s s
  | runs {t : State} (i : Instr) (hs : s.status = .running) (hi : fetchDecode cfg s = .ok i) (h : Ends cfg i s t) :
      StepEnds cfg s t
  | unmapped (hs : s.status = .running) : StepEnds cfg s (raiseFault cfg .unmappedOpcode s)

/-- Every step answers a next state, and ends in one of the three ways. -/
theorem stepWith_exists_ends (cfg : Config) (s : State) : ∃ t, stepWith cfg s = .next t ∧ StepEnds cfg s t := by
  obtain ⟨hs, hrun⟩ | ⟨hs, i, hi, hrun⟩ | ⟨hs, -, hrun⟩ := stepBy_cases cfg (execWith cfg) s
  · exact ⟨s, hrun, .idle hs⟩
  · obtain ⟨t, ht, h⟩ := execWith_ends cfg i s
    exact ⟨t, hrun.trans ht, .runs i hs hi h⟩
  · exact ⟨_, hrun, .unmapped hs⟩

/-- The state a step answers is one of its ends. -/
theorem stepWith_ends (h : stepWith cfg s = .next t) : StepEnds cfg s t := by
  obtain ⟨t', ht', hends⟩ := stepWith_exists_ends cfg s
  rw [h] at ht'
  cases ht'
  exact hends

theorem step_ends (h : step s = .next t) : StepEnds defaultConfig s t :=
  stepWith_ends (step_eq_stepWith s ▸ h)

/-- The statements' reading of the bytes at `IP` is the decoder's (R14, R51). -/
theorem fetched_eq_fetchDecode (s : State) : Spec.fetched s = fetchDecode defaultConfig s := by
  have hip : (s.ip.toNat + 0) % 256 = s.ip.toNat := Nat.mod_eq_of_lt s.ip.isLt
  simp only [fetchDecode, fetchByte, fetchAddress_eq, hip]
  rfl

/-! ### Memory stays canonical -/

theorem Completes.memoryCanonical (h : Completes cfg i s t) (hs : MemoryCanonical s) : MemoryCanonical t := by
  unfold MemoryCanonical at hs ⊢
  obtain hmem | ⟨addr, v, haddr, hmem⟩ := h.mem
  · rwa [hmem]
  · rw [hmem]
    exact Memory.wf_write v hs (Nat.lt_trans haddr (by decide))

theorem Ends.memoryCanonical (h : Ends cfg i s t) (hs : MemoryCanonical s) : MemoryCanonical t := by
  cases h with
  | halts => exact hs
  | completes h => exact h.memoryCanonical hs
  | faults => exact hs

theorem StepEnds.memoryCanonical (h : StepEnds cfg s t) (hs : MemoryCanonical s) : MemoryCanonical t := by
  cases h with
  | idle => exact hs
  | runs _ _ _ h => exact h.memoryCanonical hs
  | unmapped => exact hs

/-! ### The fault report stays consistent -/

/-- A running machine's report is consistent iff it has emitted nothing (R105). -/
theorem reportConsistent_iff_of_running (hs : s.status = .running) : ReportConsistent cfg s ↔ s.diag = [] := by
  simp only [ReportConsistent, hs]

/-- Raising a fault sets `ERR` (R98). -/
@[simp] theorem flag_err_raiseFault (cfg : Config) (kind : FaultKind) (s : State) :
    (raiseFault cfg kind s).flag cfg .err = true :=
  (flag_setFlag cfg s .err .err true).trans (if_pos rfl)

/-- A fault raised before anything was emitted leaves a consistent report: `ERR` set and exactly its stream (R99). -/
theorem reportConsistent_raiseFault (kind : FaultKind) (hs : s.diag = []) :
    ReportConsistent cfg (raiseFault cfg kind s) := by
  simp only [ReportConsistent, State.raiseFault_status]
  exact ⟨flag_err_raiseFault cfg kind s, by simp [hs]⟩

theorem Ends.reportConsistent (h : Ends cfg i s t) (hrun : s.status = .running) (hs : ReportConsistent cfg s) :
    ReportConsistent cfg t := by
  have hdiag := (reportConsistent_iff_of_running hrun).1 hs
  cases h with
  | halts => exact hdiag
  | completes h => exact (reportConsistent_iff_of_running (h.status.trans hrun)).2 (h.diag.trans hdiag)
  | faults kind => exact reportConsistent_raiseFault kind hdiag

theorem StepEnds.reportConsistent (h : StepEnds cfg s t) (hs : ReportConsistent cfg s) : ReportConsistent cfg t := by
  cases h with
  | idle => exact hs
  | runs _ hrun _ h => exact h.reportConsistent hrun hs
  | unmapped hrun => exact reportConsistent_raiseFault _ ((reportConsistent_iff_of_running hrun).1 hs)

/-! ### What changes a slot and a bit of `FL` -/

/-- A slot other than `IP` and `FL` changes in an instruction only as its destination (R13, R21, R22). -/
theorem Ends.destination_of_readReg_ne (h : Ends cfg i s t) {r : Reg} (hip : r ≠ .ip) (hfl : r ≠ .fl)
    (hne : t.readReg r ≠ s.readReg r) : i.destination = some (cfg.regIdMap.idOf r) := by
  cases h with
  | halts => exact absurd (by cases r <;> rfl) hne
  | completes h => exact h.reg r hip hfl hne
  | faults kind => exact absurd (State.readReg_raiseFault_of_ne cfg kind s hfl) hne

theorem StepEnds.destination_of_readReg_ne (h : StepEnds cfg s t) {r : Reg} (hip : r ≠ .ip) (hfl : r ≠ .fl)
    (hne : t.readReg r ≠ s.readReg r) :
    ∃ i, fetchDecode cfg s = .ok i ∧ i.destination = some (cfg.regIdMap.idOf r) := by
  cases h with
  | idle => exact absurd rfl hne
  | runs i _ hi h => exact ⟨i, hi, h.destination_of_readReg_ne hip hfl hne⟩
  | unmapped => exact absurd (State.readReg_raiseFault_of_ne cfg _ s hfl) hne

/-- A fault changes no bit of `FL` but `ERR` (R18, R98). -/
theorem eq_err_of_raiseFault_bit_ne {kind : FaultKind} {k : Nat}
    (hne : (raiseFault cfg kind s).fl.getLsbD k ≠ s.fl.getLsbD k) : k = (cfg.flagBits.bitOf .err).val := by
  by_contra hk
  rw [State.raiseFault_fl, getLsbD_byteWithBit, if_neg hk] at hne
  exact hne rfl

/-- The three writers of a bit of `FL`: a destination `FL`, `operate` for `Z` and `C`, and a fault for `ERR`. -/
theorem Ends.flBit_writer (h : Ends cfg i s t) {k : Nat} (hne : t.fl.getLsbD k ≠ s.fl.getLsbD k) :
    i.destination = some (cfg.regIdMap.idOf .fl) ∨
    (i.callsOperate = true ∧ (k = (cfg.flagBits.bitOf .z).val ∨ k = (cfg.flagBits.bitOf .c).val)) ∨
    (k = (cfg.flagBits.bitOf .err).val ∧ ∃ kind, t.status = .faulted kind) := by
  cases h with
  | halts => exact absurd rfl hne
  | completes h => exact (h.flBit k hne).imp_right .inl
  | faults kind => exact .inr (.inr ⟨eq_err_of_raiseFault_bit_ne hne, kind, rfl⟩)

theorem StepEnds.flBit_writer (h : StepEnds cfg s t) {k : Nat} (hne : t.fl.getLsbD k ≠ s.fl.getLsbD k) :
    (∃ i, fetchDecode cfg s = .ok i ∧ i.destination = some (cfg.regIdMap.idOf .fl)) ∨
    ((k = (cfg.flagBits.bitOf .z).val ∨ k = (cfg.flagBits.bitOf .c).val) ∧
      ∃ i, fetchDecode cfg s = .ok i ∧ i.callsOperate = true) ∨
    (k = (cfg.flagBits.bitOf .err).val ∧ ∃ kind, s.status = .running ∧ t.status = .faulted kind) := by
  cases h with
  | idle => exact absurd rfl hne
  | runs i hs hi h =>
    obtain hd | ⟨hop, hk⟩ | ⟨hk, kind, ht⟩ := h.flBit_writer hne
    · exact .inl ⟨i, hi, hd⟩
    · exact .inr (.inl ⟨hk, i, hi, hop⟩)
    · exact .inr (.inr ⟨hk, kind, hs, ht⟩)
  | unmapped hs => exact .inr (.inr ⟨eq_err_of_raiseFault_bit_ne hne, _, hs, rfl⟩)

end Sys2Proof.Machine

namespace Sys2Proof.Proofs

open Sys2Proof.Machine

/-- Settles O31: the one store an instruction can make is at a memory operand's address, inside memory. -/
theorem stepKeepsMemoryCanonical : Obligations.StepKeepsMemoryCanonical :=
  ⟨fun _ _ hs h => (step_ends h).memoryCanonical hs, fun _ _ _ hs h => (stepWith_ends h).memoryCanonical hs⟩

/-- Settles O33: only a fault emits or makes the status Faulted, and only a running machine, which has emitted
nothing, can raise one. -/
theorem stepKeepsTheFaultReportConsistent : Obligations.StepKeepsTheFaultReportConsistent :=
  ⟨fun _ _ hs h => (step_ends h).reportConsistent hs, fun _ _ _ hs h => (stepWith_ends h).reportConsistent hs⟩

/-- Settles O35, from the frame of an instruction that completes; a fault restores every slot but `FL`. -/
theorem registersChangeOnlyAsDestinations : Obligations.RegistersChangeOnlyAsDestinations := by
  intro s t r h hip hfl hne
  rw [fetched_eq_fetchDecode]
  exact (step_ends h).destination_of_readReg_ne hip hfl hne

/-- Settles O37: each end of a step has one writer of the bits of `FL`; the positions are the default ones (R15). -/
theorem flagBitsChangeOnlyByTheirWriters : Obligations.FlagBitsChangeOnlyByTheirWriters := by
  intro s t k h hne
  rw [fetched_eq_fetchDecode]
  have default_bits :
      (k = (defaultConfig.flagBits.bitOf .z).val ∨ k = (defaultConfig.flagBits.bitOf .c).val) → k < 2 := by
    rintro (rfl | rfl) <;> decide
  exact (step_ends h).flBit_writer hne |>.imp_right (.imp_left (.imp_left default_bits))

end Sys2Proof.Proofs
end

section
/-! What an instruction does not see: changing a slot before it or after it comes to the same. O36 changes a slot the
instruction does not name, O38 the bit `ERR` of `FL`. -/

namespace Sys2Proof.Machine

/-! ### Flag writes commute -/

/-- Replacing two different bits of a byte can be done in either order (R15). -/
theorem byteWithBit_comm (v : Byte) {j k : Fin 8} (hne : j ≠ k) (x y : Bool) :
    byteWithBit (byteWithBit v j.val x) k.val y = byteWithBit (byteWithBit v k.val y) j.val x := by
  have hval : j.val ≠ k.val := fun e => hne (Fin.ext e)
  apply BitVec.eq_of_getLsbD_eq
  intro n _
  simp only [getLsbD_byteWithBit]
  by_cases hk : n = k.val
  · have hj : n ≠ j.val := fun e => hval (e.symm.trans hk)
    simp only [if_pos hk, if_neg hj]
  · simp only [if_neg hk]

/-- Replacing a bit twice leaves the second value (R15). -/
theorem byteWithBit_byteWithBit (v : Byte) (k : Fin 8) (x y : Bool) :
    byteWithBit (byteWithBit v k.val x) k.val y = byteWithBit v k.val y := by
  apply BitVec.eq_of_getLsbD_eq
  intro n _
  simp only [getLsbD_byteWithBit]
  split <;> rfl

theorem setFlag_comm (cfg : Config) (s : State) {f g : Flag} (hne : f ≠ g) (x y : Bool) :
    (s.setFlag cfg f x).setFlag cfg g y = (s.setFlag cfg g y).setFlag cfg f x := by
  have hbits : cfg.flagBits.bitOf f ≠ cfg.flagBits.bitOf g := fun e => hne (cfg.flagBits.injective f g e)
  exact congrArg (fun v => { s with fl := v }) (byteWithBit_comm s.fl hbits x y)

@[simp] theorem setFlag_setFlag (cfg : Config) (s : State) (f : Flag) (x y : Bool) :
    (s.setFlag cfg f x).setFlag cfg f y = s.setFlag cfg f y :=
  congrArg (fun v => { s with fl := v }) (byteWithBit_byteWithBit s.fl _ x y)

/-- A flag write and a write of another slot than `FL` can be done in either order. -/
theorem setFlag_writeReg_of_ne (cfg : Config) (s : State) {r : Reg} (hr : r ≠ .fl) (v : Byte) (f : Flag) (on : Bool) :
    (s.writeReg r v).setFlag cfg f on = (s.setFlag cfg f on).writeReg r v := by
  cases r with
  | fl => exact absurd rfl hr
  | _ => rfl

/-- The state `operate` leaves, as one write of `Z` and one of `C` (R55). -/
theorem operate_snd (cfg : Config) (x : Int) (s : State) :
    (operate cfg x s).2 = (s.setFlag cfg .z (decide (x = 0))).setFlag cfg .c (decide (x < 0 ∨ 255 < x)) := by
  have hzc : Flag.z ≠ .c := by decide
  by_cases h0 : x = 0
  · subst h0
    simp [operate, setFlag_comm cfg _ hzc]
  · by_cases hout : x < 0 ∨ 255 < x
    · simp only [operate, if_neg h0, if_pos hout, decide_eq_false h0, decide_eq_true hout, setFlag_setFlag]
    · simp only [operate, if_neg h0, if_neg hout, decide_eq_false h0, decide_eq_false hout]

/-! ### Changing one slot -/

/-- A state is its slots, its memory, its status and its stream (R25). -/
theorem State.ext_readReg {s t : State} (hreg : ∀ r, s.readReg r = t.readReg r) (hmem : s.mem = t.mem)
    (hstatus : s.status = t.status) (hdiag : s.diag = t.diag) : s = t := by
  cases s
  cases t
  simp only [State.mk.injEq]
  exact ⟨hreg .a, hreg .b, hreg .c, hreg .d, hreg .ip, hreg .sp, hreg .fl, hreg .ha, hmem, hstatus, hdiag⟩

/-- Two different slots can be written in either order (R12). -/
theorem State.writeReg_comm (s : State) {r q : Reg} (hne : r ≠ q) (v w : Byte) :
    (s.writeReg r v).writeReg q w = (s.writeReg q w).writeReg r v := by
  refine State.ext_readReg (fun x => ?_) (by simp) (by simp) (by simp)
  simp only [State.readReg_writeReg]
  by_cases hx : x = q
  · simp only [if_pos hx, if_neg fun e : x = r => hne (e.symm.trans hx)]
  · simp only [if_neg hx]

/-- The state with the byte of one slot replaced by a function of it. -/
def State.modifyReg (s : State) (r : Reg) (f : Byte → Byte) : State := s.writeReg r (f (s.readReg r))

namespace State

variable {r : Reg} {f : Byte → Byte}

theorem modifyReg_const (s : State) (r : Reg) (v : Byte) : s.modifyReg r (fun _ => v) = s.writeReg r v := rfl

/-- A flag write changes the slot `FL` only. -/
theorem modifyReg_fl_byteWithBit (cfg : Config) (s : State) (g : Flag) (on : Bool) :
    s.modifyReg .fl (fun v => byteWithBit v (cfg.flagBits.bitOf g).val on) = s.setFlag cfg g on := rfl

@[simp] theorem modifyReg_mem (s : State) : (s.modifyReg r f).mem = s.mem := writeReg_mem s r _

theorem readReg_modifyReg_of_ne (s : State) {q : Reg} (hq : q ≠ r) : (s.modifyReg r f).readReg q = s.readReg q :=
  readReg_writeReg_of_ne s _ hq

theorem advance_modifyReg (s : State) (n : Nat) (hr : r ≠ .ip) :
    (s.modifyReg r f).advance n = (s.advance n).modifyReg r f := by
  cases r with
  | ip => exact absurd rfl hr
  | _ => rfl

theorem writeReg_modifyReg_of_ne (s : State) {q : Reg} (hq : q ≠ r) (v : Byte) :
    (s.modifyReg r f).writeReg q v = (s.writeReg q v).modifyReg r f := by
  rw [modifyReg, modifyReg, writeReg_comm s hq.symm, readReg_writeReg_of_ne s v hq.symm]

theorem setMem_modifyReg (s : State) (m : Memory) :
    { s.modifyReg r f with mem := m } = { s with mem := m }.modifyReg r f := by
  cases r <;> rfl

theorem setStatus_modifyReg (s : State) (status : RunStatus) :
    { s.modifyReg r f with status := status } = { s with status := status }.modifyReg r f := by
  cases r <;> rfl

end State

/-! ### What an instruction does not see -/

/-- Changing slot `r` by `f` is out of the instruction's sight: it does not name the slot, nor is the slot `IP` or `HA`;
the change leaves `Z` and `C` and commutes with `operate`, and with a fault if the instruction can raise one. -/
structure Unseen (i : Instr) (r : Reg) (f : Byte → Byte) : Prop where
  ne_ip : r ≠ .ip
  ne_ha : r ≠ .ha
  unnamed : defaultRegId r ∉ i.regIds
  flag : ∀ (s : State) (g : Flag), g ≠ .err → (s.modifyReg r f).flag defaultConfig g = s.flag defaultConfig g
  operate : ∀ (x : Int) (s : State),
    (operate defaultConfig x (s.modifyReg r f)).2 = (operate defaultConfig x s).2.modifyReg r f
  fault : i.wf = false → ∀ (kind : FaultKind) (s : State),
    raiseFault defaultConfig kind (s.modifyReg r f) = (raiseFault defaultConfig kind s).modifyReg r f

/-- Making the change before the meaning `run` or after it comes to the same. -/
def Commutes (r : Reg) (f : Byte → Byte) (run : State → Host.Outcome State Fault Refusal) : Prop :=
  ∀ s t, run s = .next t → run (s.modifyReg r f) = .next (t.modifyReg r f)

/-- An id that names no slot makes an instruction that holds it ill formed (R41). -/
theorem wf_eq_false_of_mem {i : Instr} {d : RegId} (hd : d ∈ i.regIds) (hge : 8 ≤ d.toNat) : i.wf = false := by
  by_contra hwf
  have hnames : d.names = true := List.all_eq_true.1 (Bool.of_not_eq_false hwf) d hd
  exact absurd (of_decide_eq_true hnames) (Nat.not_lt.2 hge)

/-- A second operand that cannot be read holds an id that names no slot. -/
theorem bad_id_of_readSource_error {cfg : Config} {src : Source} {s : State} {e : Raise}
    (h : readSource cfg src s = .error e) : ∃ d ∈ src.ids, 8 ≤ d.toNat := by
  cases src with
  | reg d =>
    obtain ⟨q, rfl, -⟩ | ⟨hge, -⟩ := resolveReg_cases cfg d
    · rw [readSource_reg_idOf] at h
      cases h
    · exact ⟨d, List.mem_singleton_self d, hge⟩
  | mem m =>
    rw [readSource_mem] at h
    cases h
  | imm v => cases h

/-- The common form of the shapes that resolve a register and read a second operand, then change the state: `effect`
is what they do to the state in which all `n` bytes are fetched (R52). -/
def withOperands (n : Nat) (d : RegId) (src : Source) (effect : Reg → Byte → State → State) (s0 : State) :
    Host.Outcome State Fault Refusal :=
  finish defaultConfig s0 do
    let rd ← resolveReg defaultConfig d
    let v ← readSource defaultConfig src (s0.advance n)
    return effect rd v (s0.advance n)

theorem moveInto_eq_withOperands (d : RegId) (src : Source) :
    moveInto defaultConfig d src = withOperands 3 d src fun rd v s => s.writeReg rd v := rfl

theorem aluInto_eq_withOperands (g : Byte → Byte → Int) (d : RegId) (src : Source) :
    aluInto defaultConfig g d src =
      withOperands 3 d src fun rd v s => operateInto defaultConfig rd (g (s.readReg rd) v) s := rfl

theorem compareWith_eq_withOperands (a : RegId) (src : Source) :
    compareWith defaultConfig a src =
      withOperands 3 a src fun ra v s => operateDiscard defaultConfig (aluSub (s.readReg ra) v) s := rfl

/-- `INC` and `DEC` have the constant 1 as their second operand (R66, R67). -/
theorem aluByOne_eq_withOperands (g : Byte → Byte → Int) (d : RegId) :
    aluByOne defaultConfig g d =
      withOperands 2 d (.imm 1) fun rd v s => operateInto defaultConfig rd (g (s.readReg rd) v) s := rfl

/-- `NOT` has no second operand, so any constant stands for it (R83). -/
theorem complement_eq_withOperands (d : RegId) :
    complement defaultConfig d = withOperands 2 d (.imm 0) fun rd _ s => s.writeReg rd (~~~(s.readReg rd)) := rfl

namespace Unseen

variable {i : Instr} {r : Reg} {f : Byte → Byte}

/-- A slot the instruction names is another one. -/
theorem ne_of_named (u : Unseen i r f) {q : Reg} (hq : defaultRegId q ∈ i.regIds) : q ≠ r := by
  rintro rfl
  exact u.unnamed hq

theorem effectiveAddress (u : Unseen i r f) (s : State) (m : Offset) :
    effectiveAddress (s.modifyReg r f) m = effectiveAddress s m := by
  rw [effectiveAddress_eq, effectiveAddress_eq, ← State.readReg_ha, State.readReg_modifyReg_of_ne s u.ne_ha.symm,
    State.readReg_ha]

/-- A second operand of the instruction reads the same. -/
theorem readSource (u : Unseen i r f) {src : Source} (hids : ∀ d ∈ src.ids, d ∈ i.regIds) (s : State) :
    readSource defaultConfig src (s.modifyReg r f) = readSource defaultConfig src s := by
  cases src with
  | reg d =>
    obtain ⟨q, rfl, -⟩ | ⟨hge, -⟩ := resolveReg_cases defaultConfig d
    · have hq : q ≠ r := u.ne_of_named (hids _ (List.mem_singleton_self _))
      rw [readSource_reg_idOf, readSource_reg_idOf, State.readReg_modifyReg_of_ne s hq]
    · rw [readSource_reg_of_ge _ hge, readSource_reg_of_ge _ hge]
  | mem m => rw [readSource_mem, readSource_mem, u.effectiveAddress, State.modifyReg_mem]
  | imm v => rfl

/-- A fault the instruction raises restores the slots, so the change can be made before it or after it. -/
theorem raiseFault_modifyReg (u : Unseen i r f) {d : RegId} (hd : d ∈ i.regIds) (hge : 8 ≤ d.toNat) (kind : FaultKind)
    (s : State) : raiseFault defaultConfig kind (s.modifyReg r f) = (raiseFault defaultConfig kind s).modifyReg r f :=
  u.fault (wf_eq_false_of_mem hd hge) kind s

theorem commutes_withOperands (u : Unseen i r f) {n : Nat} {d : RegId} {src : Source}
    {effect : Reg → Byte → State → State} (hids : i.regIds = d :: src.ids)
    (heffect : ∀ rd v s, rd ≠ r → effect rd v (s.modifyReg r f) = (effect rd v s).modifyReg r f) :
    Commutes r f (withOperands n d src effect) := by
  intro s t hrun
  have hd : d ∈ i.regIds := hids ▸ List.mem_cons_self
  have hsrc : ∀ b ∈ src.ids, b ∈ i.regIds := fun b hb => hids ▸ List.mem_cons_of_mem d hb
  unfold withOperands at hrun ⊢
  rw [State.advance_modifyReg s n u.ne_ip, u.readSource hsrc]
  obtain ⟨rd, rfl, hres⟩ | ⟨hge, hres⟩ := resolveReg_cases defaultConfig d
  · have hrd : rd ≠ r := u.ne_of_named hd
    obtain ⟨v, hv⟩ | hv := readSource_cases defaultConfig src (s.advance n)
    · simp only [hres, hv, bind, Except.bind, pure, Except.pure, finish_ok] at hrun ⊢
      cases hrun
      rw [heffect rd v _ hrd]
    · obtain ⟨b, hb, hge⟩ := bad_id_of_readSource_error hv
      simp only [hres, hv, bind, Except.bind, finish_trap] at hrun ⊢
      cases hrun
      rw [u.raiseFault_modifyReg (hsrc b hb) hge]
  · simp only [hres, bind, Except.bind, finish_trap] at hrun ⊢
    cases hrun
    rw [u.raiseFault_modifyReg hd hge]

/-- A store to a memory operand neither reads nor writes the slot. -/
theorem commutes_storeTo (u : Unseen i r f) {m : Offset} {src : Source} (hids : i.regIds = src.ids) :
    Commutes r f (storeTo defaultConfig m src) := by
  intro s t hrun
  have hsrc : ∀ b ∈ src.ids, b ∈ i.regIds := fun b hb => hids ▸ hb
  have hread := u.readSource hsrc (s.advance 3)
  rw [← State.advance_modifyReg s 3 u.ne_ip] at hread
  obtain ⟨v, hv, hs⟩ | ⟨hv, hs⟩ := storeTo_cases defaultConfig m src s
  · rw [hs] at hrun
    cases hrun
    rw [storeTo_ok defaultConfig m (hread.trans hv), u.effectiveAddress, State.modifyReg_mem,
      State.advance_modifyReg s 3 u.ne_ip, State.setMem_modifyReg]
  · obtain ⟨b, hb, hge⟩ := bad_id_of_readSource_error hv
    rw [hs] at hrun
    cases hrun
    obtain ⟨-, hbad, -⟩ := shapes_of_bad_source defaultConfig (hread.trans hv) aluAdd 0 m
    rw [hbad, u.raiseFault_modifyReg (hsrc b hb) hge]

/-- A jump depends on `Z` and `C` only, and under the default bound never faults (R87, R88). -/
theorem commutes_jumpIf (u : Unseen i r f) (cond : Bool → Bool → Bool) (a : Target) :
    Commutes r f fun s => jumpIf defaultConfig (cond (s.flag defaultConfig .z) (s.flag defaultConfig .c)) a s := by
  intro s t hrun
  simp only [jumpIf_default] at hrun ⊢
  rw [u.flag s .z (by decide), u.flag s .c (by decide), State.advance_modifyReg s 2 u.ne_ip,
    State.writeReg_modifyReg_of_ne _ u.ne_ip.symm]
  cases hrun
  split <;> rfl

theorem operateInto (u : Unseen i r f) {rd : Reg} (hrd : rd ≠ r) (x : Int) (s : State) :
    operateInto defaultConfig rd x (s.modifyReg r f) = (operateInto defaultConfig rd x s).modifyReg r f := by
  rw [Machine.operateInto, Machine.operateInto, operate_fst, operate_fst, u.operate,
    State.writeReg_modifyReg_of_ne _ hrd]

/-- An instruction commutes with every change it does not see. -/
theorem commutes_exec (u : Unseen i r f) : Commutes r f (exec i) := by
  have key := execWith_by_shape defaultConfig (P := fun i run => Unseen i r f → Commutes r f run)
    ?halt ?move ?store ?byOne ?compl ?alu ?cmp ?branch i u
  case halt =>
    intro _ s t hrun
    cases hrun
    exact congrArg _ (State.setStatus_modifyReg s .halted)
  case move =>
    intro i d src hids _ _ u
    rw [moveInto_eq_withOperands]
    exact u.commutes_withOperands hids fun rd v s hrd => State.writeReg_modifyReg_of_ne s hrd v
  case store => exact fun i m src hids _ _ u => u.commutes_storeTo hids
  case byOne =>
    intro i g d hids _ _ _ u
    rw [aluByOne_eq_withOperands]
    refine u.commutes_withOperands hids fun rd v s hrd => ?_
    rw [State.readReg_modifyReg_of_ne s hrd, u.operateInto hrd]
  case compl =>
    intro i d hids _ _ u
    rw [complement_eq_withOperands]
    refine u.commutes_withOperands hids fun rd v s hrd => ?_
    rw [State.readReg_modifyReg_of_ne s hrd, State.writeReg_modifyReg_of_ne s hrd]
  case alu =>
    intro i g d src hids _ _ _ u
    rw [aluInto_eq_withOperands]
    refine u.commutes_withOperands hids fun rd v s hrd => ?_
    rw [State.readReg_modifyReg_of_ne s hrd, u.operateInto hrd]
  case cmp =>
    intro i a src hids _ _ _ u
    rw [compareWith_eq_withOperands]
    refine u.commutes_withOperands hids fun ra v s hra => ?_
    rw [State.readReg_modifyReg_of_ne s hra, operateDiscard, operateDiscard, u.operate]
  case branch => exact fun i cond a _ _ _ u => u.commutes_jumpIf cond a
  have hexec : exec i = execWith defaultConfig i := funext (exec_eq_execWith i)
  rwa [hexec]

/-! ### The two changes -/

/-- Writing a slot other than `IP`, `FL` and `HA` is out of sight of every instruction that does not name it. -/
theorem of_writeReg (hip : r ≠ .ip) (hfl : r ≠ .fl) (hha : r ≠ .ha) (hids : defaultRegId r ∉ i.regIds) (v : Byte) :
    Unseen i r fun _ => v where
  ne_ip := hip
  ne_ha := hha
  unnamed := hids
  flag s g _ := flag_writeReg_of_ne defaultConfig s v g hfl
  operate x s := by
    simp only [State.modifyReg_const, operate_snd, setFlag_writeReg_of_ne defaultConfig _ hfl]
  fault _ kind s := by
    cases r with
    | fl => exact absurd rfl hfl
    | _ => rfl

/-- Writing `ERR` is out of sight of every well-formed instruction that does not name `FL` (R18). -/
theorem of_setErr (hwf : i.wf = true) (hids : defaultRegId .fl ∉ i.regIds) (on : Bool) :
    Unseen i .fl fun v => byteWithBit v (defaultConfig.flagBits.bitOf .err).val on where
  ne_ip := nofun
  ne_ha := nofun
  unnamed := hids
  flag s g hg := by rw [State.modifyReg_fl_byteWithBit, flag_setFlag, if_neg hg]
  operate x s := by
    have hz : Flag.err ≠ .z := nofun
    have hc : Flag.err ≠ .c := nofun
    simp only [State.modifyReg_fl_byteWithBit, operate_snd, setFlag_comm defaultConfig _ hz,
      setFlag_comm defaultConfig _ hc]
  fault hbad := absurd (hwf.symm.trans hbad) nofun

end Unseen

end Sys2Proof.Machine

namespace Sys2Proof.Proofs

open Sys2Proof.Machine

/-- Settles O36: a write of such a slot commutes with every operand read, with `operate`, and with the fault entry. -/
theorem unnamedRegistersAreNotUsed : Obligations.UnnamedRegistersAreNotUsed :=
  fun _ s t _ v hip hfl hha hids hrun => (Unseen.of_writeReg hip hfl hha hids v).commutes_exec s t hrun

/-- Settles O38: `operate` and the jumps use `Z` and `C` only, and a well-formed instruction raises no fault. -/
theorem errDoesNotSteerExecution : Obligations.ErrDoesNotSteerExecution :=
  fun _ s t on hwf hids hrun => (Unseen.of_setErr hwf hids on).commutes_exec s t hrun

end Sys2Proof.Proofs
end

section
/-! How a step uses memory: it always answers a next state, stores only below 511, reads only below 511 unless it
faults, and its store is what the next fetch reads. O29, O39, O40 and O41. -/

namespace Sys2Proof.Machine

/-! ### Stores -/

section

variable {cfg : Config} {i : Instr} {s t : State} {x : Nat}

/-- The one store of an instruction that completes is at a memory operand's address (R27). -/
theorem Completes.read_of_ge (h : Completes cfg i s t) (hx : 511 ≤ x) : Memory.read t.mem x = Memory.read s.mem x := by
  obtain hmem | ⟨addr, v, haddr, hmem⟩ := h.mem
  · rw [hmem]
  · have hne : x ≠ addr := by omega
    rw [hmem, Memory.read_write_of_ne s.mem v hne]

theorem Ends.read_of_ge (h : Ends cfg i s t) (hx : 511 ≤ x) : Memory.read t.mem x = Memory.read s.mem x := by
  cases h with
  | halts => rfl
  | completes h => exact h.read_of_ge hx
  | faults => rfl

theorem StepEnds.read_of_ge (h : StepEnds cfg s t) (hx : 511 ≤ x) : Memory.read t.mem x = Memory.read s.mem x := by
  cases h with
  | idle => rfl
  | runs _ _ _ h => exact h.read_of_ge hx
  | unmapped => rfl

end

/-! ### The two ways of a step that does not fault, as equations -/

/-- A running machine does what the fetched instruction means (R50). -/
theorem stepBy_of_fetchDecode {cfg : Config} {run : Instr → State → Host.Outcome State Fault Refusal} {s : State}
    {i : Instr} (hs : s.status = .running) (hi : fetchDecode cfg s = .ok i) : stepBy cfg run s = run i s := by
  simp only [stepBy, hs, hi]

/-- A machine whose run is over stays as it is (R49). -/
theorem stepBy_of_not_running {cfg : Config} {run : Instr → State → Host.Outcome State Fault Refusal} {s : State}
    (hs : s.status ≠ .running) : stepBy cfg run s = .next s := by
  obtain ⟨-, h⟩ | ⟨hrun, -⟩ | ⟨hrun, -⟩ := stepBy_cases cfg run s
  · exact h
  · exact absurd hrun hs
  · exact absurd hrun hs

/-! ### Operations that ignore memory -/

/-- Replacing memory before the state change `f` or after it comes to the same. -/
def IgnoresMemory (f : State → State) : Prop := ∀ s m, f { s with mem := m } = { f s with mem := m }

/-- A change that ignores memory leaves it as it is. -/
theorem IgnoresMemory.mem {f : State → State} (h : IgnoresMemory f) (s : State) : (f s).mem = s.mem := by
  have hsame : f s = { f s with mem := s.mem } := h s s.mem
  rw [hsame]

theorem IgnoresMemory.comp {f g : State → State} (hf : IgnoresMemory f) (hg : IgnoresMemory g) :
    IgnoresMemory fun s => f (g s) :=
  fun s m => (congrArg f (hg s m)).trans (hf (g s) m)

@[simp] theorem State.readReg_setMem (s : State) (m : Memory) (r : Reg) :
    ({ s with mem := m } : State).readReg r = s.readReg r := by
  cases r <;> rfl

/-- A change that also depends on a slot ignores memory if it does for every value of the slot. -/
theorem IgnoresMemory.ofReadReg {g : Byte → State → State} (hg : ∀ v, IgnoresMemory (g v)) (r : Reg) :
    IgnoresMemory fun s => g (s.readReg r) s := by
  intro s m
  simp only [State.readReg_setMem]
  exact hg (s.readReg r) s m

theorem ignoresMemory_advance (n : Nat) : IgnoresMemory fun s => s.advance n := fun _ _ => rfl

theorem ignoresMemory_writeReg (r : Reg) (v : Byte) : IgnoresMemory fun s => s.writeReg r v := by
  intro s m
  cases r <;> rfl

theorem ignoresMemory_operate (cfg : Config) (x : Int) : IgnoresMemory fun s => (operate cfg x s).2 := by
  intro s m
  simp only [operate_snd]
  rfl

theorem ignoresMemory_operateInto (cfg : Config) (rd : Reg) (x : Int) : IgnoresMemory (operateInto cfg rd x) := by
  intro s m
  simp only [operateInto, operate_fst]
  exact (ignoresMemory_writeReg rd (clampByte x)).comp (ignoresMemory_operate cfg x) s m

/-- What an ALU instruction does to its destination once its second operand is read (R65). -/
theorem ignoresMemory_aluEffect (cfg : Config) (f : Byte → Byte → Int) (rd : Reg) (v : Byte) :
    IgnoresMemory fun s => operateInto cfg rd (f (s.readReg rd) v) s :=
  .ofReadReg (g := fun b => operateInto cfg rd (f b v)) (fun _ => ignoresMemory_operateInto cfg rd _) rd

/-! ### What reads memory below 511 only -/

/-- Two memories read the same at every address an operand or a fetch can have (R27). -/
def AgreeLow (m n : Memory) : Prop := ∀ x, x < 511 → Memory.read m x = Memory.read n x

/-- The same store keeps two canonical memories in agreement. -/
theorem AgreeLow.write {m n : Memory} (h : AgreeLow m n) (hm : Memory.wf m = true) (hn : Memory.wf n = true)
    (addr : Nat) (v : Byte) : AgreeLow (Memory.write m addr v) (Memory.write n addr v) := by
  intro x hx
  rw [Memory.read_write hm, Memory.read_write hn, h x hx]

/-- A second operand reads memory below 511 only (R27, R57). -/
theorem AgreeLow.readSource {m : Memory} {s : State} (h : AgreeLow m s.mem) (cfg : Config) (src : Source) :
    readSource cfg src { s with mem := m } = readSource cfg src s := by
  cases src with
  | reg d => simp only [Machine.readSource, State.readReg_setMem]
  | mem offset =>
    rw [readSource_mem, readSource_mem]
    exact congrArg Except.ok (h _ (effectiveAddress_lt s offset))
  | imm v => rfl

/-- A fetch reads memory below 256 only (R14, R27). -/
theorem AgreeLow.fetchByte {m : Memory} {s : State} (h : AgreeLow m s.mem) (k : Nat) :
    fetchByte k { s with mem := m } = fetchByte k s := by
  have hlow : fetchAddress k s < 511 := by
    rw [fetchAddress_eq]
    omega
  exact h _ hlow

theorem AgreeLow.fetchDecode {m : Memory} {s : State} (h : AgreeLow m s.mem) (cfg : Config) :
    fetchDecode cfg { s with mem := m } = fetchDecode cfg s := by
  simp only [Machine.fetchDecode, h.fetchByte]

/-- No run of `run` that does not end Faulted depends on memory from 511 up: with another canonical memory that agrees
below, the next state is the same but for its memory, which agrees below again. -/
def IgnoresHighMemory (run : State → Host.Outcome State Fault Refusal) : Prop :=
  ∀ (s t : State) (m : Memory), Memory.wf s.mem = true → Memory.wf m = true → AgreeLow m s.mem → run s = .next t →
    (∀ kind, t.status ≠ .faulted kind) → ∃ m', run { s with mem := m } = .next { t with mem := m' } ∧ AgreeLow m' t.mem

theorem IgnoresMemory.ignoresHighMemory {f : State → State} (hf : IgnoresMemory f) :
    IgnoresHighMemory fun s => .next (f s) := by
  intro s t m _ _ hlow hrun _
  cases hrun
  exact ⟨m, congrArg _ (hf s m), (hf.mem s).symm ▸ hlow⟩

/-- The shapes that resolve their operands and then change the state depend on memory through the second operand. -/
theorem ignoresHighMemory_withOperands {n : Nat} {d : RegId} {src : Source} {effect : Reg → Byte → State → State}
    (heffect : ∀ rd v, IgnoresMemory (effect rd v)) : IgnoresHighMemory (withOperands n d src effect) := by
  intro s t m hs hm hlow hrun hfault
  have hread : readSource defaultConfig src (({ s with mem := m } : State).advance n) =
      readSource defaultConfig src (s.advance n) :=
    AgreeLow.readSource (s := s.advance n) hlow defaultConfig src
  unfold withOperands at hrun ⊢
  rw [hread]
  obtain ⟨rd, -, hres⟩ | ⟨-, hres⟩ := resolveReg_cases defaultConfig d
  · obtain ⟨v, hv⟩ | hv := readSource_cases defaultConfig src (s.advance n)
    · simp only [hres, hv, bind, Except.bind, pure, Except.pure, finish_ok] at hrun ⊢
      exact ((heffect rd v).comp (ignoresMemory_advance n)).ignoresHighMemory s t m hs hm hlow hrun hfault
    · simp only [hres, hv, bind, Except.bind, finish_trap] at hrun
      cases hrun
      exact absurd rfl (hfault _)
  · simp only [hres, bind, Except.bind, finish_trap] at hrun
    cases hrun
    exact absurd rfl (hfault _)

/-- A store writes the same byte to both memories, below 511. -/
theorem ignoresHighMemory_storeTo (m : Offset) (src : Source) : IgnoresHighMemory (storeTo defaultConfig m src) := by
  intro s t mem hs hm hlow hrun hfault
  obtain ⟨v, hv, hstore⟩ | ⟨-, hstore⟩ := storeTo_cases defaultConfig m src s
  · have hread := (AgreeLow.readSource (s := s.advance 3) hlow defaultConfig src).trans hv
    rw [hstore] at hrun
    cases hrun
    exact ⟨_, storeTo_ok (s0 := { s with mem := mem }) defaultConfig m hread, hlow.write hm hs _ v⟩
  · rw [hstore] at hrun
    cases hrun
    exact absurd rfl (hfault _)

/-- A jump depends on the flags only, and under the default bound never faults (R87, R88). -/
theorem ignoresHighMemory_jumpIf (cond : Bool → Bool → Bool) (a : Target) :
    IgnoresHighMemory fun s =>
      jumpIf defaultConfig (cond (s.flag defaultConfig .z) (s.flag defaultConfig .c)) a s := by
  simp only [jumpIf_default]
  refine IgnoresMemory.ignoresHighMemory fun s m => ?_
  change (if cond (s.flag defaultConfig .z) (s.flag defaultConfig .c) then _ else _) = _
  split <;> rfl

theorem ignoresHighMemory_exec (i : Instr) : IgnoresHighMemory (exec i) := by
  have hexec : exec i = execWith defaultConfig i := funext (exec_eq_execWith i)
  rw [hexec]
  refine execWith_by_shape defaultConfig (P := fun _ run => IgnoresHighMemory run)
    ?halt ?move ?store ?byOne ?compl ?alu ?cmp ?branch i
  case halt => exact IgnoresMemory.ignoresHighMemory fun _ _ => rfl
  case move =>
    intro _ d src _ _ _
    rw [moveInto_eq_withOperands]
    exact ignoresHighMemory_withOperands ignoresMemory_writeReg
  case store => exact fun _ m src _ _ _ => ignoresHighMemory_storeTo m src
  case byOne =>
    intro _ f d _ _ _ _
    rw [aluByOne_eq_withOperands]
    exact ignoresHighMemory_withOperands (ignoresMemory_aluEffect defaultConfig f)
  case compl =>
    intro _ d _ _ _
    rw [complement_eq_withOperands]
    exact ignoresHighMemory_withOperands fun rd _ =>
      .ofReadReg (g := fun b s => s.writeReg rd (~~~b)) (fun _ => ignoresMemory_writeReg rd _) rd
  case alu =>
    intro _ f d src _ _ _ _
    rw [aluInto_eq_withOperands]
    exact ignoresHighMemory_withOperands (ignoresMemory_aluEffect defaultConfig f)
  case cmp =>
    intro _ a src _ _ _ _
    rw [compareWith_eq_withOperands]
    exact ignoresHighMemory_withOperands fun ra v =>
      .ofReadReg (g := fun b => operateDiscard defaultConfig (aluSub b v)) (fun _ => ignoresMemory_operate _ _) ra
  case branch => exact fun _ cond a _ _ _ => ignoresHighMemory_jumpIf cond a

theorem ignoresHighMemory_step : IgnoresHighMemory step := by
  intro s t m hs hm hlow hrun hfault
  unfold step at hrun ⊢
  obtain ⟨hstatus, hstep⟩ | ⟨hstatus, i, hi, hstep⟩ | ⟨-, -, hstep⟩ := stepBy_cases defaultConfig exec s
  · rw [hstep] at hrun
    cases hrun
    exact ⟨m, stepBy_of_not_running (s := { s with mem := m }) hstatus, hlow⟩
  · rw [hstep] at hrun
    rw [stepBy_of_fetchDecode (s := { s with mem := m }) hstatus ((hlow.fetchDecode defaultConfig).trans hi)]
    exact ignoresHighMemory_exec i s t m hs hm hlow hrun hfault
  · rw [hstep] at hrun
    cases hrun
    exact absurd rfl (hfault _)

/-! ### Fetching what was stored -/

/-- A register operand of a 3-byte instruction reads its slot once the bytes are fetched (R52). -/
theorem readReg_advance_three (s : State) (r : Reg) : (s.advance 3).readReg r = Spec.operand s 3 r :=
  State.readReg_advance s 3 r

/-- After three bytes are fetched and one is stored, a fetch reads the stored byte at its address and the old byte
elsewhere (R34, R36). -/
theorem fetchByte_after_store {s : State} (hs : Memory.wf s.mem = true) (m : Offset) (v : Byte) (k : Nat) :
    fetchByte k { s.advance 3 with mem := Memory.write s.mem (effectiveAddress s m) v } =
      if (s.ip.toNat + 3 + k) % 256 = s.ha.toNat + m.toNat then v
      else Memory.read s.mem ((s.ip.toNat + 3 + k) % 256) := by
  have haddr : fetchAddress k { s.advance 3 with mem := Memory.write s.mem (effectiveAddress s m) v } =
      (s.ip.toNat + 3 + k) % 256 := by
    rw [fetchAddress_eq, State.advance_ip, BitVec.toNat_add, BitVec.toNat_ofNat]
    omega
  rw [fetchByte, haddr, Memory.read_write hs, effectiveAddress_eq]

end Sys2Proof.Machine

namespace Sys2Proof.Proofs

open Sys2Proof.Machine

/-- Settles O29: every shape of instruction ends in a next state, since a memory operand's address is inside memory. -/
theorem everyStepAnswersANextState : Obligations.EveryStepAnswersANextState := by
  have answers : ∀ cfg s, ∃ t, stepWith cfg s = .next t := fun cfg s =>
    (stepWith_exists_ends cfg s).imp fun _ h => h.1
  exact ⟨fun s => step_eq_stepWith s ▸ answers defaultConfig s, answers⟩

/-- Settles O39: the one store a step can make is at a memory operand's address, at most 510. -/
theorem storesStayBelow511 : Obligations.StoresStayBelow511 := fun _ _ _ h hx => (step_ends h).read_of_ge hx

/-- Settles O40: fetches and operands read below 511 only; the dump of a fault is the one read above. -/
theorem highMemoryIsNotRead : Obligations.HighMemoryIsNotRead := by
  intro s t m hs hm hlow hrun hfault
  obtain ⟨m', hrun', hlow'⟩ := ignoresHighMemory_step s t m hs hm hlow hrun hfault
  exact ⟨_, hrun', State.readReg_setMem t m', rfl, rfl, hlow'⟩

/-- Settles O41: the fetched `MOV` stores its source's value, and the next fetches read the memory it leaves. -/
theorem storesAreSeenByTheNextFetch : Obligations.StoresAreSeenByTheNextFetch := by
  intro s i m v hs hrun hi hv
  have hstep : step s = exec i s := stepBy_of_fetchDecode hrun (fetched_eq_fetchDecode s ▸ hi)
  have hstore : exec i s = .next { s.advance 3 with mem := Memory.write s.mem (effectiveAddress s m) v } := by
    obtain rfl | ⟨rs, rfl, rfl⟩ := hv
    · exact storeTo_ok defaultConfig m (readSource_imm defaultConfig v (s.advance 3))
    · rw [← readReg_advance_three]
      exact storeTo_ok defaultConfig m (readSource_reg_idOf defaultConfig rs (s.advance 3))
  exact ⟨_, hstep.trans hstore, rfl, hrun, fetchByte_after_store hs m v⟩

end Sys2Proof.Proofs
end

section
/-! Decoding and encoding are inverse to each other under every opcode map: O22 and O23. -/

namespace Sys2Proof

/-- The decoder answers exactly what an opcode name with the first byte makes of the two bytes after it (R38, R44). -/
theorem decodeWith_eq_ok_iff (m : OpcodeMap) (b0 b1 b2 : Byte) (i : Instr) :
    decodeWith m b0 b1 b2 = .ok i ↔ ∃ o, m.byteOf o = b0 ∧ o.build b1 b2 = i := by
  constructor
  · intro h
    cases ho : opWithByte m.byteOf b0 with
    | none => simp [decodeWith, ho] at h
    | some o => exact ⟨o, byteOf_of_opWithByte ho, by simpa [decodeWith, ho] using h⟩
  · rintro ⟨o, rfl, rfl⟩
    simp only [decodeWith, opWithByte_byteOf]

/-- `build` reads its operands in the order in which they are encoded, and no byte past the form's length (R39, R40). -/
theorem build_op_operandBytes (i : Instr) (x y : Byte) :
    i.op.build (i.operandBytes.getD 0 x) (i.operandBytes.getD 1 y) = i := by
  cases i <;> rfl

/-- A built instruction keeps the operand bytes that its form has room for after the opcode (R39, R40). -/
theorem operandBytes_build (o : Op) (b1 b2 : Byte) :
    (o.build b1 b2).operandBytes = [b1, b2].take (o.form.length - 1) := by
  cases o <;> rfl

/-- Every form has an opcode byte (R38). -/
theorem Form.length_pos (f : Form) : 0 < f.length := by cases f <;> decide

/-- The encoding of a built instruction: the opcode and the two bytes, cut to the form's length (R38, R39). -/
theorem encodeWith_build (m : OpcodeMap) (o : Op) (b1 b2 : Byte) :
    encodeWith m (o.build b1 b2) = [m.byteOf o, b1, b2].take o.form.length := by
  rw [encodeWith, op_build, operandBytes_build, List.take_cons o.form.length_pos]

end Sys2Proof

namespace Sys2Proof.Proofs

/-- Settles O22: the map's injectivity finds the opcode name again, and the name reads back its own operands. -/
theorem decodeOfEncodeUnderEveryMap : Obligations.DecodeOfEncodeUnderEveryMap := by
  intro m i after
  exact (decodeWith_eq_ok_iff ..).2 ⟨i.op, rfl, build_op_operandBytes i (after 1) (after 2)⟩

/-- Settles O23: what the decoder answers is built by an opcode name that has the first byte. -/
theorem encodeOfDecodeUnderEveryMap : Obligations.EncodeOfDecodeUnderEveryMap := by
  intro m b0 b1 b2 i h
  obtain ⟨o, rfl, rfl⟩ := (decodeWith_eq_ok_iff ..).1 h
  rw [Instr.length, op_build, encodeWith_build]

end Sys2Proof.Proofs
end

section
/-! The execution cycle: the status an instruction and a step leave, what `operate` leaves in the two flags, and the jump
to itself: O15, O25, O28 and O30. -/

namespace Sys2Proof.Machine

open Sys2Proof.Spec

/-! ### The status an instruction leaves -/

/-- The status the instruction leaves under the default configuration, from the status before it: `HLT` halts (R59), a
register id that names no slot faults (R41), and any other instruction keeps the status (R54, R97). -/
def endStatus (i : Instr) (before : RunStatus) : RunStatus :=
  if i = .hlt then .halted else if i.wf then before else .faulted .invalidRegisterId

/-- From every state the meaning answers a next state with the status that `endStatus` says. -/
def LeavesEndStatus (i : Instr) (run : State → Host.Outcome State Fault Refusal) : Prop :=
  ∀ s, Next (run s) fun t => t.status = endStatus i s.status

variable {i : Instr}

/-- An instruction all of whose ids name slots keeps the status. -/
theorem endStatus_of_names (hi : i ≠ .hlt) (hids : ∀ d ∈ i.regIds, d.toNat < 8) (before : RunStatus) :
    endStatus i before = before := by
  have hwf : i.wf = true := List.all_eq_true.2 fun d hd => decide_eq_true (hids d hd)
  rw [endStatus, if_neg hi, if_pos hwf]

/-- An instruction with an id that names no slot faults. -/
theorem endStatus_of_bad_id (hi : i ≠ .hlt) {d : RegId} (hd : d ∈ i.regIds) (hge : 8 ≤ d.toNat)
    (before : RunStatus) : endStatus i before = .faulted .invalidRegisterId := by
  simp [endStatus, hi, wf_eq_false_of_mem hd hge]

/-- A second operand is read if its ids name slots, and raises `InvalidRegisterId` if one of them does not (R41). -/
theorem readSource_cases_ids (cfg : Config) (src : Source) (s : State) :
    ((∀ d ∈ src.ids, d.toNat < 8) ∧ ∃ v, readSource cfg src s = .ok v) ∨
    (∃ d ∈ src.ids, 8 ≤ d.toNat) ∧ readSource cfg src s = .error (.trap .invalidRegisterId) := by
  by_cases hids : ∃ d ∈ src.ids, 8 ≤ d.toNat
  · obtain ⟨d, hd, hge⟩ := hids
    cases src with
    | reg r =>
      obtain rfl := List.mem_singleton.1 hd
      exact .inr ⟨⟨d, hd, hge⟩, readSource_reg_of_ge cfg hge s⟩
    | mem | imm => exact absurd hd List.not_mem_nil
  · obtain hv | herr := readSource_cases cfg src s
    · exact .inl ⟨by simpa using hids, hv⟩
    · exact absurd (bad_id_of_readSource_error herr) hids

theorem leavesEndStatus_withOperands {n : Nat} {d : RegId} {src : Source} {effect : Reg → Byte → State → State}
    (hids : i.regIds = d :: src.ids) (hi : i ≠ .hlt)
    (heffect : ∀ rd v s, (effect rd v s).status = s.status) : LeavesEndStatus i (withOperands n d src effect) := by
  intro s
  obtain ⟨rd, rfl, hrd⟩ | ⟨hge, hbad⟩ := resolveReg_cases defaultConfig d
  · obtain ⟨hsrc, v, hv⟩ | ⟨⟨b, hb, hge⟩, herr⟩ := readSource_cases_ids defaultConfig src (s.advance n)
    · have hnames : ∀ b ∈ i.regIds, b.toNat < 8 :=
        hids ▸ List.forall_mem_cons.2 ⟨defaultConfig.regIdMap.idOf_lt rd, hsrc⟩
      refine ⟨effect rd v (s.advance n), by simp [withOperands, hv, bind, Except.bind, pure, Except.pure], ?_⟩
      exact (heffect rd v _).trans (endStatus_of_names hi hnames _).symm
    · refine ⟨raiseFault defaultConfig .invalidRegisterId s, by simp [withOperands, herr, bind, Except.bind], ?_⟩
      exact (endStatus_of_bad_id hi (hids ▸ List.mem_cons_of_mem _ hb) hge _).symm
  · refine ⟨raiseFault defaultConfig .invalidRegisterId s, by simp [withOperands, hbad, bind, Except.bind], ?_⟩
    exact (endStatus_of_bad_id hi (hids ▸ List.mem_cons_self) hge _).symm

theorem leavesEndStatus_storeTo {m : Offset} {src : Source} (hids : i.regIds = src.ids) (hi : i ≠ .hlt) :
    LeavesEndStatus i (storeTo defaultConfig m src) := by
  intro s
  obtain ⟨hsrc, v, hv⟩ | ⟨⟨b, hb, hge⟩, herr⟩ := readSource_cases_ids defaultConfig src (s.advance 3)
  · exact ⟨_, storeTo_ok defaultConfig m hv, (endStatus_of_names hi (hids ▸ hsrc) _).symm⟩
  · obtain ⟨-, hrun, -⟩ := shapes_of_bad_source defaultConfig herr aluAdd 0 m
    exact ⟨_, hrun, (endStatus_of_bad_id hi (hids ▸ hb) hge _).symm⟩

/-- A jump names no register, and the default bound accepts its target (R87). -/
theorem leavesEndStatus_jumpIf (taken : State → Bool) (a : Target) (hids : i.regIds = []) (hi : i ≠ .hlt) :
    LeavesEndStatus i fun s => jumpIf defaultConfig (taken s) a s := by
  intro s
  refine ⟨_, jumpIf_default (taken s) a s, ?_⟩
  rw [endStatus_of_names hi (by simp [hids])]
  cases taken s <;> rfl

theorem leavesEndStatus_exec (i : Instr) : LeavesEndStatus i (exec i) := by
  rw [funext (exec_eq_execWith i)]
  refine execWith_by_shape defaultConfig (P := LeavesEndStatus) ?halt ?move ?store ?byOne ?compl ?alu ?cmp ?branch i
  case halt => exact fun s => ⟨_, rfl, rfl⟩
  case move =>
    intro i d src hids _ hi
    rw [moveInto_eq_withOperands]
    exact leavesEndStatus_withOperands hids hi fun rd v s => State.writeReg_status s rd v
  case store => exact fun i m src hids _ hi => leavesEndStatus_storeTo hids hi
  case byOne =>
    intro i f r hids _ _ hi
    rw [aluByOne_eq_withOperands]
    exact leavesEndStatus_withOperands hids hi fun rd v s => operateInto_status _ rd _ s
  case compl =>
    intro i r hids _ hi
    rw [complement_eq_withOperands]
    exact leavesEndStatus_withOperands hids hi fun rd _ s => State.writeReg_status s rd _
  case alu =>
    intro i f d src hids _ _ hi
    rw [aluInto_eq_withOperands]
    exact leavesEndStatus_withOperands hids hi fun rd v s => operateInto_status _ rd _ s
  case cmp =>
    intro i a src hids _ _ hi
    rw [compareWith_eq_withOperands]
    exact leavesEndStatus_withOperands hids hi fun ra v s => operate_status _ _ s
  case branch =>
    exact fun i cond a hids _ hi => leavesEndStatus_jumpIf
      (fun s => cond (s.flag defaultConfig .z) (s.flag defaultConfig .c)) a hids hi

/-! ### The status a step leaves -/

section
variable {s : State}

/-- A running machine does what the bytes at its `IP` decode to (R50, R51). -/
theorem step_of_fetched (hs : s.status = .running) (hi : fetched s = .ok i) : step s = exec i s :=
  stepBy_of_fetchDecode hs (fetched_eq_fetchDecode s ▸ hi)

/-- A running machine whose bytes decode to nothing raises `UnmappedOpcode` (R45). -/
theorem step_of_not_fetched (hs : s.status = .running) (hi : ∀ i, fetched s ≠ .ok i) :
    step s = .next (raiseFault defaultConfig .unmappedOpcode s) := by
  rw [fetched_eq_fetchDecode] at hi
  obtain ⟨hne, -⟩ | ⟨-, i, hok, -⟩ | ⟨-, -, hstep⟩ := stepBy_cases defaultConfig exec s
  · exact absurd hs hne
  · exact absurd hok (hi i)
  · exact hstep

end

/-- The four ways an instruction can leave a running machine, in the order of `endStatus` (R54, R97). -/
theorem endStatus_running_iff (i : Instr) :
    (endStatus i .running = .halted ↔ i = .hlt) ∧
    endStatus i .running ≠ .faulted .unmappedOpcode ∧
    (endStatus i .running = .faulted .invalidRegisterId ↔ i.wf = false) ∧
    endStatus i .running ≠ .faulted .invalidControlTarget ∧
    (endStatus i .running = .running ↔ i.wf = true ∧ i ≠ .hlt) := by
  by_cases hi : i = .hlt
  · subst hi
    decide
  · cases hwf : i.wf <;> simp [endStatus, hi, hwf]

/-! ### The jump to itself -/

/-- A taken jump to `IP` undoes the advance of `IP`, which is all that fetching it changed (R87, R89). -/
theorem exec_jmpI_ip (s : State) : exec (.jmpI s.ip) s = .next s :=
  jumpIf_default true s.ip s

/-- Step requests to a machine whose step leaves it as it is. -/
theorem drive_stepInput_of_step_fixed {s : State} (h : step s = .next s) (n : Nat) :
    drive (List.replicate n stepInput) s = .next s := by
  have htransact : transact stepInput s = .next s := h
  induction n with
  | zero => rfl
  | succ n ih => simpa only [List.replicate_succ, drive, htransact] using ih

/-! ### The flags and the byte of `operate` -/

theorem flag_z_operate (cfg : Config) (x : Int) (s : State) : (operate cfg x s).2.flag cfg .z = decide (x = 0) := by
  rw [State.flag, operate_fl_bit, if_pos rfl]

theorem flag_c_operate (cfg : Config) (x : Int) (s : State) :
    (operate cfg x s).2.flag cfg .c = decide (x < 0 ∨ 255 < x) := by
  rw [operate_snd, flag_setFlag, if_pos rfl]

/-- The byte kept of an unclamped result is its remainder modulo 256, also of a negative one (R7). -/
theorem clampByte_toNat (x : Int) : ((clampByte x).toNat : Int) = x % 256 := by
  rw [clampByte, BitVec.toNat_ofInt]
  omega

end Sys2Proof.Machine

namespace Sys2Proof.Proofs

open Sys2Proof.Machine

/-- Settles O15: the flags are those of the unclamped result, the byte is the result modulo 256. -/
theorem operateSetsZAndCFromTheUnclampedResult : Obligations.OperateSetsZAndCFromTheUnclampedResult := by
  intro cfg x s
  refine ⟨?byte, ?z, ?c, ?otherBits, fun r hr => readReg_operate_of_ne cfg x s hr, ?rest,
    operate_fst cfg 256 s, flag_z_operate cfg 256 s, flag_c_operate cfg 256 s⟩
  case byte => rw [operate_fst, clampByte_toNat]
  case z => rw [flag_z_operate, decide_eq_true_iff]
  case c => rw [flag_c_operate, decide_eq_true_iff]
  case otherBits =>
    intro k hz hc
    rw [operate_fl_bit, if_neg hz, if_neg hc]
  case rest => exact ⟨fun a => by rw [operate_mem], operate_status cfg x s, operate_diag cfg x s⟩

/-- Settles O25: the bytes of the statement are those the decoder is given. -/
theorem stepRunsTheDecodedInstruction : Obligations.StepRunsTheDecodedInstruction :=
  fun _ _ hs hi => step_of_fetched hs hi

/-- Settles O28: the fetched instruction leaves its `endStatus`, and bytes that decode to nothing fault. -/
theorem stepResultIsDecidedByTheInstruction : Obligations.StepResultIsDecidedByTheInstruction := by
  intro s hs
  by_cases hfetched : ∃ i, Spec.fetched s = .ok i
  · obtain ⟨i, hi⟩ := hfetched
    obtain ⟨t, hrun, ht⟩ := leavesEndStatus_exec i s
    refine ⟨t, (step_of_fetched hs hi).trans hrun, ?_⟩
    simpa [ht, hs, hi] using endStatus_running_iff i
  · have hnone : ∀ i, Spec.fetched s ≠ .ok i := fun i hi => hfetched ⟨i, hi⟩
    exact ⟨_, step_of_not_fetched hs hnone, by simp [hnone]⟩

/-- Settles O30: the state is a fixed point of `step`, so of any number of requests. -/
theorem jumpToItselfNeverEnds : Obligations.JumpToItselfNeverEnds := by
  intro s hs hi n
  exact drive_stepInput_of_step_fixed ((step_of_fetched hs hi).trans (exec_jmpI_ip s)) n

end Sys2Proof.Proofs
end

section
/-! `HLT` and the `MOV` family: what the fault of a bad register id leaves, the rule of the three-form instructions from
what they do to resolved operands, and O1, O2 and O3. -/

namespace Sys2Proof.Machine

open Sys2Proof.Spec

/-! ### What a fault leaves -/

/-- Raising a fault keeps all but `ERR`, the status and the stream, which gets the window and the message (R98, R99). -/
theorem faultTaken_raiseFault (kind : FaultKind) (s : State) :
    FaultTaken kind s (raiseFault defaultConfig kind s) := by
  refine ⟨rfl, ?bits, fun r hr => State.readReg_raiseFault_of_ne _ kind s hr, fun _ => rfl, ?stream⟩
  case bits => exact getLsbD_byteWithBit s.fl (defaultConfig.flagBits.bitOf .err) true
  case stream =>
    rw [State.raiseFault_diag, List.map_append, diagStream, map_data_markLast, List.append_assoc]
    rfl

/-! ### Instructions with two operands -/

section
variable {n : Nat} {effect : Reg → Byte → State → State}

/-- A slot and a source that reads: the effect on the state past the instruction's bytes (R52). -/
theorem withOperands_of_readSource (rd : Reg) {src : Source} {s : State} {v : Byte}
    (h : readSource defaultConfig src (s.advance n) = .ok v) :
    withOperands n (defaultRegId rd) src effect s = .next (effect rd v (s.advance n)) := by
  have hrd : resolveReg defaultConfig (defaultRegId rd) = .ok rd := resolveReg_idOf defaultConfig rd
  simp [withOperands, hrd, h, bind, Except.bind, pure, Except.pure]

/-- An id in the first position that names no slot (R41). -/
theorem withOperands_of_bad_id {d : RegId} (hd : 8 ≤ d.toNat) (src : Source) (s : State) :
    Next (withOperands n d src effect s) (FaultTaken .invalidRegisterId s) := by
  refine ⟨_, ?_, faultTaken_raiseFault .invalidRegisterId s⟩
  simp [withOperands, resolveReg_of_ge defaultConfig hd, bind, Except.bind]

/-- A source id that names no slot, whatever the id in the first position (R41). -/
theorem withOperands_of_bad_source (d : RegId) {y : RegId} (hy : 8 ≤ y.toNat) (s : State) :
    Next (withOperands n d (.reg y) effect s) (FaultTaken .invalidRegisterId s) := by
  obtain ⟨rd, -, hd⟩ | ⟨hd, -⟩ := resolveReg_cases defaultConfig d
  · refine ⟨_, ?_, faultTaken_raiseFault .invalidRegisterId s⟩
    simp [withOperands, hd, readSource_reg_of_ge defaultConfig hy, bind, Except.bind]
  · exact withOperands_of_bad_id hd _ s

end

/-- A register operand of a 3-byte instruction reads `operand` (R52). -/
theorem readSource_reg_operand (rs : Reg) (s : State) :
    readSource defaultConfig (.reg (defaultRegId rs)) (s.advance 3) = .ok (operand s 3 rs) := by
  rw [← readReg_advance_three]
  exact readSource_reg_idOf defaultConfig rs (s.advance 3)

section
variable {rr rm ri : Byte → Byte → Instr} {effect : Reg → Byte → State → State}

/-- Three instructions that do one `effect` to a register, a memory and an immediate operand keep what `effect` does to
every slot and every value (R52). -/
theorem inThreeForms_of_withOperands {P : State → Reg → Byte → Byte → State → Prop}
    (hrr : ∀ x y, exec (rr x y) = withOperands 3 x (.reg y) effect)
    (hrm : ∀ x m, exec (rm x m) = withOperands 3 x (.mem m) effect)
    (hri : ∀ x i, exec (ri x i) = withOperands 3 x (.imm i) effect)
    (heffect : ∀ s rd v, P s rd (operand s 3 rd) v (effect rd v (s.advance 3))) : InThreeForms rr rm ri P := by
  refine ⟨fun s rd rs => ?register, fun s rd m => ?memory, fun s rd i => ?immediate⟩
  case register =>
    exact hrr _ _ ▸ ⟨_, withOperands_of_readSource rd (readSource_reg_operand rs s), heffect s rd _⟩
  case memory =>
    have hread := readSource_mem defaultConfig m (s.advance 3)
    rw [effectiveAddress_advance, effectiveAddress_eq, State.advance_mem] at hread
    exact hrm _ _ ▸ ⟨_, withOperands_of_readSource rd hread, heffect s rd _⟩
  case immediate =>
    exact hri _ _ ▸ ⟨_, withOperands_of_readSource rd (readSource_imm defaultConfig i _), heffect s rd _⟩

/-- The whole rule of three such instructions: with their encodings and their faults (R41, R52). -/
theorem threeForms_of_withOperands {opRR opRM opRI : Byte} {Effect : State → State → Reg → Byte → Byte → Prop}
    (hencode : ∀ x y, encode (rr x y) = [opRR, x, y] ∧ encode (rm x y) = [opRM, x, y] ∧ encode (ri x y) = [opRI, x, y])
    (hrr : ∀ x y, exec (rr x y) = withOperands 3 x (.reg y) effect)
    (hrm : ∀ x m, exec (rm x m) = withOperands 3 x (.mem m) effect)
    (hri : ∀ x i, exec (ri x i) = withOperands 3 x (.imm i) effect)
    (heffect : ∀ s rd v, Effect s (effect rd v (s.advance 3)) rd (operand s 3 rd) v) :
    ThreeForms opRR opRM opRI rr rm ri Effect := by
  obtain ⟨hregister, hmemory, himmediate⟩ :=
    inThreeForms_of_withOperands (P := fun s rd a b t => Effect s t rd a b) hrr hrm hri heffect
  refine ⟨hencode, hregister, hmemory, himmediate, fun s d y hd => ?badId, fun s d y hy => ?badSource⟩
  case badId =>
    rw [hrr, hrm, hri]
    exact ⟨withOperands_of_bad_id hd _ s, withOperands_of_bad_id hd _ s, withOperands_of_bad_id hd _ s⟩
  case badSource => exact hrr d y ▸ withOperands_of_bad_source d hy s

end

/-! ### What a move and a store leave -/

/-- A slot written after `n` bytes are fetched: nothing else but `IP` changes (R60, R61, R62). -/
theorem registerWritten_writeReg_advance (n : Nat) (rd : Reg) (v : Byte) (s : State) :
    RegisterWritten s ((s.advance n).writeReg rd v) (BitVec.ofNat 8 n) rd v := by
  refine ⟨State.readReg_writeReg_same _ rd v, State.writeReg_ip_of_ne _ v, ?others, ?rest⟩
  case others =>
    intro r hrd hip
    rw [State.readReg_writeReg_of_ne _ v hrd, State.readReg_advance_of_ne s n hip]
  case rest => simp [KeepsRest]

/-- The byte at `HA + m` reads as `v` in a canonical memory, and `IP` is past three bytes; nothing else changes
(R63, R64). -/
def ByteStored (s : State) (m : Offset) (v : Byte) (t : State) : Prop :=
  (MemoryCanonical s → Memory.read t.mem (effectiveAddress s m) = v) ∧
  (∀ x, x ≠ effectiveAddress s m → Memory.read t.mem x = Memory.read s.mem x) ∧
  t.ip = s.ip + 3 ∧ (∀ r, r ≠ .ip → t.readReg r = s.readReg r) ∧ t.status = s.status ∧ t.diag = s.diag

/-- A store whose source reads stores the byte it reads. -/
theorem storeTo_byteStored {m : Offset} {src : Source} {s : State} {v : Byte}
    (h : readSource defaultConfig src (s.advance 3) = .ok v) :
    Next (storeTo defaultConfig m src s) (ByteStored s m v) := by
  refine ⟨_, storeTo_ok defaultConfig m h, ?stored, ?elsewhere, rfl, ?registers, rfl, rfl⟩
  case stored =>
    intro hs
    rw [Memory.read_write hs, if_pos rfl]
  case elsewhere => exact fun x hx => Memory.read_write_of_ne s.mem v hx
  case registers =>
    intro r hr
    rw [State.readReg_setMem, State.readReg_advance_of_ne s 3 hr]

end Sys2Proof.Machine

namespace Sys2Proof.Proofs

open Sys2Proof.Machine

/-- Settles O2: the three forms write one effect of their resolved operands, which is a register write. -/
theorem movIntoRegister : Obligations.MovIntoRegister :=
  threeForms_of_withOperands (effect := fun rd v s => s.writeReg rd v)
    (fun _ _ => ⟨rfl, rfl, rfl⟩) (fun _ _ => rfl) (fun _ _ => rfl) (fun _ _ => rfl)
    fun s rd v => registerWritten_writeReg_advance 3 rd v s

/-- Settles O3: both forms are a store of what their source reads, and a source id that names no slot faults. -/
theorem movIntoMemory : Obligations.MovIntoMemory := by
  refine ⟨fun _ _ => ⟨rfl, rfl⟩, effectiveAddress_eq, fun s m rs => ?register, fun s m i => ?immediate,
    fun s m y hy => ?badSource⟩
  case register => exact storeTo_byteStored (readSource_reg_operand rs s)
  case immediate => exact storeTo_byteStored (readSource_imm defaultConfig i _)
  case badSource =>
    have hread := readSource_reg_of_ge defaultConfig hy (s.advance 3)
    obtain ⟨-, hrun, -⟩ := shapes_of_bad_source defaultConfig hread aluAdd 0 m
    exact ⟨_, hrun, faultTaken_raiseFault .invalidRegisterId s⟩

/-- Settles O1: `HLT` writes the status and no other field. -/
theorem hltHaltsInPlace : Obligations.HltHaltsInPlace := by
  refine ⟨rfl, fun s => ⟨_, rfl, rfl, fun r => ?registers, fun _ => rfl, rfl⟩⟩
  case registers => cases r <;> rfl

end Sys2Proof.Proofs
end

section
/-! Arithmetic, logic and compare: what each operation's unclamped result says of the byte kept and of `Z` and `C`, what
an ALU instruction and a compare leave of the state, and O4 to O9 and O11. -/

namespace Sys2Proof.Machine

open Sys2Proof.Spec

/-! ### The unclamped results -/

/-- `operate` of the unclamped `x` answers `v`, and leaves `Z` as `z` says and `C` as `c` says (R55). -/
structure OperateGives (x : Int) (v : Byte) (z c : Prop) : Prop where
  byte : clampByte x = v
  zero : x = 0 ↔ z
  outside : x < 0 ∨ 255 < x ↔ c

/-- The same with the two conditions said in other words. -/
theorem OperateGives.congr {x : Int} {v : Byte} {z z' c c' : Prop} (h : OperateGives x v z c) (hz : z ↔ z')
    (hc : c ↔ c') : OperateGives x v z' c' :=
  ⟨h.byte, h.zero.trans hz, h.outside.trans hc⟩

/-- An unclamped result that is a byte is kept whole, and is never outside 0 to 255 (R56). -/
theorem operateGives_toNat (v : Byte) : OperateGives (v.toNat : Int) v (v = 0) False := by
  have hlt := v.isLt
  refine ⟨BitVec.eq_of_toNat_eq ?byte, ?zero, ?outside⟩
  case byte =>
    have hclamp := clampByte_toNat v.toNat
    omega
  case zero =>
    rw [← BitVec.toNat_inj]
    exact Int.natCast_eq_zero
  case outside => exact iff_false_intro (by omega)

/-- `ADD` (R68, R69, R70): the sum is 0 only of two zeros, and is never negative. -/
theorem operateGives_aluAdd (a b : Byte) :
    OperateGives (aluAdd a b) (a + b) (a = 0 ∧ b = 0) (255 < a.toNat + b.toNat) := by
  unfold aluAdd
  refine ⟨BitVec.eq_of_toNat_eq ?byte, ?zero, ?outside⟩
  case byte =>
    have hclamp := clampByte_toNat ((a.toNat : Int) + b.toNat)
    rw [BitVec.toNat_add]
    omega
  case zero => bv_omega
  case outside => omega

/-- `SUB` and `CMP` (R71, R84): the difference is never above 255, and is negative when it borrows. -/
theorem operateGives_aluSub (a b : Byte) : OperateGives (aluSub a b) (a - b) (a = b) (a.toNat < b.toNat) := by
  have ha := a.isLt
  have hb := b.isLt
  unfold aluSub
  refine ⟨BitVec.eq_of_toNat_eq ?byte, ?zero, ?outside⟩
  case byte =>
    have hclamp := clampByte_toNat ((a.toNat : Int) - b.toNat)
    rw [BitVec.toNat_sub]
    omega
  case zero => bv_omega
  case outside => omega

theorem operateGives_aluAnd (a b : Byte) : OperateGives (aluAnd a b) (a &&& b) (a &&& b = 0) False :=
  operateGives_toNat (a &&& b)

theorem operateGives_aluOr (a b : Byte) : OperateGives (aluOr a b) (a ||| b) (a = 0 ∧ b = 0) False :=
  (operateGives_toNat (a ||| b)).congr BitVec.or_eq_zero_iff Iff.rfl

theorem operateGives_aluXor (a b : Byte) : OperateGives (aluXor a b) (a ^^^ b) (a = b) False :=
  (operateGives_toNat (a ^^^ b)).congr BitVec.xor_eq_zero_iff Iff.rfl

/-- `INC`: the second operand is not 0, and the sum is above 255 only from 255 (R66). -/
theorem operateGives_inc (a : Byte) : OperateGives (aluAdd a 1) (a + 1) False (a = 255) :=
  (operateGives_aluAdd a 1).congr (by simp) (by bv_omega)

/-- `DEC`: only 0 is below 1 (R67). -/
theorem operateGives_dec (a : Byte) : OperateGives (aluSub a 1) (a - 1) (a = 1) (a = 0) :=
  (operateGives_aluSub a 1).congr Iff.rfl (by bv_omega)

/-! ### What `operate` leaves once `n` bytes are fetched -/

section
variable {x : Int} {v : Byte} {z c : Prop}

/-- `operate` writes bits 0 and 1 of `FL`, where the default positions put `Z` and `C`, and no other (R15, R55). -/
theorem flagsBecome_operate (h : OperateGives x v z c) (n : Nat) (s : State) :
    FlagsBecome s (operate defaultConfig x (s.advance n)).2 z c := by
  have hbit := operate_fl_bit defaultConfig x (s.advance n)
  have hz : (defaultConfig.flagBits.bitOf .z).val = 0 := rfl
  have hc : (defaultConfig.flagBits.bitOf .c).val = 1 := rfl
  rw [hz, hc] at hbit
  refine ⟨?zero, ?carry, fun k hk => ?others⟩
  case zero => rw [hbit, if_pos rfl, decide_eq_true_iff, h.zero]
  case carry => rw [hbit, if_neg Nat.one_ne_zero, if_pos rfl, decide_eq_true_iff, h.outside]
  case others => rw [hbit, if_neg (by omega), if_neg (by omega), State.advance_fl]

/-- The result is written after the flags, so it is what a destination `FL` holds (R58). -/
theorem resultWritten_operateInto (h : OperateGives x v z c) (n : Nat) (rd : Reg) (s : State) :
    ResultWritten s (operateInto defaultConfig rd x (s.advance n)) (BitVec.ofNat 8 n) rd v z c := by
  refine ⟨(operateInto_dest _ rd x _).trans h.byte, fun hfl => ?flags, fun hip => ?ip, fun r hrd hip hfl => ?others,
    ?rest⟩
  case flags =>
    rw [FlagsBecome, operateInto_fl defaultConfig x _ hfl]
    exact flagsBecome_operate h n s
  case ip =>
    exact operateInto_of_ne defaultConfig rd x (s.advance n) (r := .ip) (Ne.symm hip) (by decide)
  case others => rw [operateInto_of_ne _ rd x _ hrd hfl, State.readReg_advance_of_ne s n hip]
  case rest => simp [KeepsRest]

/-- A discarded result leaves the flags only (R84). -/
theorem onlyFlagsWritten_operateDiscard (h : OperateGives x v z c) (n : Nat) (s : State) :
    OnlyFlagsWritten s (operateDiscard defaultConfig x (s.advance n)) (BitVec.ofNat 8 n) z c := by
  refine ⟨flagsBecome_operate h n s, operate_ip _ x _, fun r hip hfl => ?others, ?rest⟩
  case others => exact (readReg_operate_of_ne _ x _ hfl).trans (State.readReg_advance_of_ne s n hip)
  case rest => simp [KeepsRest, operateDiscard]

end

/-! ### The rule of each shape -/

/-- The whole rule of an instruction with one register operand and a constant: with its encoding and its fault
(R41, R52). -/
theorem oneRegister_of_withOperands {op : Byte} {mk : Byte → Instr} {effect : Reg → Byte → State → State} {k : Byte}
    {Effect : State → State → Reg → Byte → Prop} (hencode : ∀ r, encode (mk r) = [op, r])
    (hrun : ∀ r, exec (mk r) = withOperands 2 r (.imm k) effect)
    (heffect : ∀ s rr, Effect s (effect rr k (s.advance 2)) rr (operand s 2 rr)) : OneRegister op mk Effect := by
  refine ⟨hencode, fun s rr => ?slot, fun s r hr => ?badId⟩
  case slot =>
    exact hrun _ ▸ ⟨_, withOperands_of_readSource rr (readSource_imm defaultConfig k _), heffect s rr⟩
  case badId => exact hrun r ▸ withOperands_of_bad_id hr _ s

/-- `INC` and `DEC`: the result of `f` on the slot and 1 is written (R66, R67). -/
theorem oneRegister_of_aluByOne {op : Byte} {mk : Byte → Instr} {f : Byte → Byte → Int} {value : Byte → Byte}
    {z c : Byte → Prop} (hencode : ∀ r, encode (mk r) = [op, r])
    (hrun : ∀ r, exec (mk r) = aluByOne defaultConfig f r)
    (hf : ∀ a, OperateGives (f a 1) (value a) (z a) (c a)) :
    OneRegister op mk fun s t rr a => ResultWritten s t 2 rr (value a) (z a) (c a) := by
  refine oneRegister_of_withOperands hencode (fun r => (hrun r).trans (aluByOne_eq_withOperands f r)) fun s rr => ?_
  have hread : (s.advance 2).readReg rr = operand s 2 rr := State.readReg_advance s 2 rr
  rw [hread]
  exact resultWritten_operateInto (hf _) 2 rr s

section
variable {opRR opRM opRI : Byte} {rr rm ri : Byte → Byte → Instr} {z c : Byte → Byte → Prop}

/-- A two-operand ALU operation in its three forms: the result of `f` on the operands is written (R65). -/
theorem threeForms_of_aluInto {f : Byte → Byte → Int} {value : Byte → Byte → Byte}
    (hencode : ∀ x y, encode (rr x y) = [opRR, x, y] ∧ encode (rm x y) = [opRM, x, y] ∧ encode (ri x y) = [opRI, x, y])
    (hrr : ∀ x y, exec (rr x y) = aluInto defaultConfig f x (.reg y))
    (hrm : ∀ x m, exec (rm x m) = aluInto defaultConfig f x (.mem m))
    (hri : ∀ x i, exec (ri x i) = aluInto defaultConfig f x (.imm i))
    (hf : ∀ a b, OperateGives (f a b) (value a b) (z a b) (c a b)) :
    ThreeForms opRR opRM opRI rr rm ri fun s t rd a b => ResultWritten s t 3 rd (value a b) (z a b) (c a b) := by
  refine threeForms_of_withOperands hencode (fun x y => (hrr x y).trans (aluInto_eq_withOperands f x _))
    (fun x m => (hrm x m).trans (aluInto_eq_withOperands f x _))
    (fun x i => (hri x i).trans (aluInto_eq_withOperands f x _))
    fun s rd v => ?_
  rw [readReg_advance_three]
  exact resultWritten_operateInto (hf _ _) 3 rd s

/-- A compare in its three forms: the difference of the operands is discarded (R84, R85, R86). -/
theorem threeForms_of_compareWith
    (hencode : ∀ x y, encode (rr x y) = [opRR, x, y] ∧ encode (rm x y) = [opRM, x, y] ∧ encode (ri x y) = [opRI, x, y])
    (hrr : ∀ x y, exec (rr x y) = compareWith defaultConfig x (.reg y))
    (hrm : ∀ x m, exec (rm x m) = compareWith defaultConfig x (.mem m))
    (hri : ∀ x i, exec (ri x i) = compareWith defaultConfig x (.imm i)) :
    ThreeForms opRR opRM opRI rr rm ri fun s t _ a b => OnlyFlagsWritten s t 3 (a = b) (a.toNat < b.toNat) := by
  refine threeForms_of_withOperands hencode (fun x y => (hrr x y).trans (compareWith_eq_withOperands x _))
    (fun x m => (hrm x m).trans (compareWith_eq_withOperands x _))
    (fun x i => (hri x i).trans (compareWith_eq_withOperands x _))
    fun s rd v => ?_
  rw [readReg_advance_three]
  exact onlyFlagsWritten_operateDiscard (operateGives_aluSub _ _) 3 s

end

end Sys2Proof.Machine

namespace Sys2Proof.Proofs

open Sys2Proof.Machine

/-- Settles O4: both are `operate` of the slot and 1, in the shape `aluByOne`. -/
theorem incAndDec : Obligations.IncAndDec :=
  ⟨oneRegister_of_aluByOne (fun _ => rfl) (fun _ => rfl) operateGives_inc,
    oneRegister_of_aluByOne (fun _ => rfl) (fun _ => rfl) operateGives_dec⟩

/-- Settles O5, from the unclamped sum. -/
theorem addInThreeForms : Obligations.AddInThreeForms :=
  threeForms_of_aluInto (fun _ _ => ⟨rfl, rfl, rfl⟩) (fun _ _ => rfl) (fun _ _ => rfl) (fun _ _ => rfl)
    operateGives_aluAdd

/-- Settles O6, from the unclamped difference. -/
theorem subInThreeForms : Obligations.SubInThreeForms :=
  threeForms_of_aluInto (fun _ _ => ⟨rfl, rfl, rfl⟩) (fun _ _ => rfl) (fun _ _ => rfl) (fun _ _ => rfl)
    operateGives_aluSub

/-- Settles O7: the result is a byte. -/
theorem andInThreeForms : Obligations.AndInThreeForms :=
  threeForms_of_aluInto (fun _ _ => ⟨rfl, rfl, rfl⟩) (fun _ _ => rfl) (fun _ _ => rfl) (fun _ _ => rfl)
    operateGives_aluAnd

/-- Settles O8: the result is a byte, 0 only of two zeros. -/
theorem orInThreeForms : Obligations.OrInThreeForms :=
  threeForms_of_aluInto (fun _ _ => ⟨rfl, rfl, rfl⟩) (fun _ _ => rfl) (fun _ _ => rfl) (fun _ _ => rfl)
    operateGives_aluOr

/-- Settles O9: the result is a byte, 0 only of two equal bytes. -/
theorem xorInThreeForms : Obligations.XorInThreeForms :=
  threeForms_of_aluInto (fun _ _ => ⟨rfl, rfl, rfl⟩) (fun _ _ => rfl) (fun _ _ => rfl) (fun _ _ => rfl)
    operateGives_aluXor

/-- Settles O11: `SUB`'s flags, with the difference itself discarded. -/
theorem cmpInThreeForms : Obligations.CmpInThreeForms :=
  threeForms_of_compareWith (fun _ _ => ⟨rfl, rfl, rfl⟩) (fun _ _ => rfl) (fun _ _ => rfl) (fun _ _ => rfl)

end Sys2Proof.Proofs
end

section
/-! Control transfer: what a jump leaves when its target is accepted and when it is rejected, the rule of a jump under
the default configuration, how a jump reads the flags an ALU instruction left, and O12, O13, O14 and O20. -/

namespace Sys2Proof.Spec

open Sys2Proof.Machine

/-- An outcome's property weakened to what follows from it. -/
theorem Next.imp {o : Host.Outcome State Fault Refusal} {P Q : State → Prop} (h : Next o P) (hPQ : ∀ t, P t → Q t) :
    Next o Q := by
  obtain ⟨t, ho, ht⟩ := h
  exact ⟨t, ho, hPQ t ht⟩

/-- A property chosen by a condition, from its two sides. -/
theorem Next.ite {o : Host.Outcome State Fault Refusal} {P Q : State → Prop} {p : Prop} [Decidable p]
    (hP : p → Next o P) (hQ : ¬ p → Next o Q) : Next o (if p then P else Q) := by
  split
  case isTrue hp => exact hP hp
  case isFalse hp => exact hQ hp

/-- Where a jump goes, with its condition said as a condition `p` on other things. -/
theorem JumpRule.ip_eq_ite {op : Byte} {mk : Byte → Instr} {taken : State → Prop} (h : JumpRule op mk taken)
    {t : State} {p : Prop} [Decidable p] (hp : taken t ↔ p) {past : Byte} (hpast : t.ip + 2 = past) (a : Byte) :
    Next (exec (mk a) t) fun u => u.ip = if p then a else past := by
  obtain ⟨-, hrun⟩ := h
  refine (hrun t a).imp fun u hu => ?_
  obtain ⟨htaken, hnot⟩ := hu
  split
  case isTrue hyes => exact (htaken (hp.2 hyes)).1
  case isFalse hno => exact (hnot fun ht => hno (hp.1 ht)).1.trans hpast

end Sys2Proof.Spec

namespace Sys2Proof.Machine

open Sys2Proof.Spec

/-! ### What a jump leaves -/

/-- Fetching changes `IP` only (R51). -/
theorem onlyIpBecomes_advance (n : Nat) (s : State) : OnlyIpBecomes s (s.advance n) (s.ip + BitVec.ofNat 8 n) :=
  ⟨rfl, fun _ hr => State.readReg_advance_of_ne s n hr, fun _ => rfl, rfl, rfl⟩

/-- A jump writes over the `IP` that fetching left (R87). -/
theorem onlyIpBecomes_writeReg_ip (n : Nat) (a : Target) (s : State) :
    OnlyIpBecomes s ((s.advance n).writeReg .ip a) a := by
  refine ⟨State.writeReg_ip_ip _ a, fun r hr => ?registers, fun _ => rfl, rfl, rfl⟩
  case registers => rw [State.readReg_writeReg_of_ne _ a hr, State.readReg_advance_of_ne s n hr]

section
variable {cfg : Config} {a : Target}

/-- A jump that is not taken goes on past its two bytes, whatever its target (R88). -/
theorem jumpIf_of_not_taken {taken : Bool} (h : taken = false) (s : State) :
    Next (jumpIf cfg taken a s) fun t => OnlyIpBecomes s t (s.ip + 2) :=
  h ▸ ⟨_, rfl, onlyIpBecomes_advance 2 s⟩

/-- A jump that is taken to a target the bound accepts (R87). -/
theorem jumpIf_of_accepted (hbound : cfg.jumpBound a.toNat = true) (s : State) :
    Next (jumpIf cfg true a s) fun t => OnlyIpBecomes s t a := by
  refine ⟨_, ?_, onlyIpBecomes_writeReg_ip 2 a s⟩
  simp [jumpIf, jump, hbound, zext16_setWidth]

/-- A jump that is taken to a target the bound rejects (R87, R97). -/
theorem jumpIf_of_rejected (hbound : cfg.jumpBound a.toNat = false) (s : State) :
    jumpIf cfg true a s = .next (raiseFault cfg .invalidControlTarget s) := by
  simp [jumpIf, jump, hbound]

/-- Where `IP` is after a jump whose target the bound accepts (R87, R88). -/
theorem ip_jumpIf_of_accepted (hbound : cfg.jumpBound a.toNat = true) (taken : Bool) (s : State) :
    Next (jumpIf cfg taken a s) fun t => t.ip = if taken then a else s.ip + 2 := by
  cases taken with
  | true => exact (jumpIf_of_accepted hbound s).imp fun _ ht => ht.1
  | false => exact (jumpIf_of_not_taken rfl s).imp fun _ ht => ht.1

end

/-- The test of `JA` as a condition (R94). -/
theorem nor_eq_true_iff (z c : Bool) : (!z && !c) = true ↔ ¬ z = true ∧ ¬ c = true := by
  rw [Bool.and_eq_true, Bool.not_iff_not, Bool.not_iff_not]

/-! ### Jumps under the default configuration -/

/-- No one-byte target reaches the default bound (R87, D8). -/
theorem defaultConfig_jumpBound (a : Target) : defaultConfig.jumpBound a.toNat = true := by
  have ha := a.isLt
  exact decide_eq_true (show a.toNat < 65536 by omega)

section
variable {op : Byte} {mk : Byte → Instr} {taken : State → Prop}

/-- The rule of an instruction that is `jumpIf` on a test which says whether it is taken. -/
theorem jumpRule_of_jumpIf {test : State → Bool} (hencode : ∀ a, encode (mk a) = [op, a])
    (hrun : ∀ s a, exec (mk a) s = jumpIf defaultConfig (test s) a s) (htest : ∀ s, test s = true ↔ taken s) :
    JumpRule op mk taken := by
  refine ⟨hencode, fun s a => ?_⟩
  rw [hrun]
  cases h : test s with
  | true =>
    have ht : taken s := (htest s).1 h
    exact (jumpIf_of_accepted (defaultConfig_jumpBound a) s).imp fun _ hu => ⟨fun _ => hu, fun hn => absurd ht hn⟩
  | false =>
    have hn : ¬ taken s := fun ht => Bool.false_ne_true (h.symm.trans ((htest s).2 ht))
    exact (jumpIf_of_not_taken rfl s).imp fun _ hu => ⟨fun ht => absurd ht hn, fun _ => hu⟩

end

end Sys2Proof.Machine

namespace Sys2Proof.Proofs

open Sys2Proof.Machine

/-- Settles O12: the shape `jumpIf` on the constant test. -/
theorem jmpGoesToItsOperand : Obligations.JmpGoesToItsOperand :=
  jumpRule_of_jumpIf (test := fun _ => true) (fun _ => rfl) (fun _ _ => rfl) fun _ => iff_of_true rfl trivial

/-- Settles O13: each condition is the test its instruction makes on the default positions of `Z` and `C`. -/
theorem conditionalJumps : Obligations.ConditionalJumps := by
  refine ⟨jumpRule_of_jumpIf (fun _ => rfl) (fun _ _ => rfl) fun s => ?jz,
    jumpRule_of_jumpIf (fun _ => rfl) (fun _ _ => rfl) fun s => ?jnz,
    jumpRule_of_jumpIf (fun _ => rfl) (fun _ _ => rfl) fun s => ?jc,
    jumpRule_of_jumpIf (fun _ => rfl) (fun _ _ => rfl) fun s => ?jnc,
    jumpRule_of_jumpIf (fun _ => rfl) (fun _ _ => rfl) fun s => ?ja,
    jumpRule_of_jumpIf (fun _ => rfl) (fun _ _ => rfl) fun s => ?jna⟩
  case jz => exact Iff.rfl
  case jnz => exact Bool.not_iff_not
  case jc => exact Iff.rfl
  case jnc => exact Bool.not_iff_not
  case ja => exact nor_eq_true_iff _ _
  case jna => exact Bool.or_eq_true_iff

end Sys2Proof.Proofs

namespace Sys2Proof.Machine

open Sys2Proof.Spec

/-! ### Jumps after a compare and after an addition -/

/-- What the effect of three instructions implies holds in their three forms (R52). -/
theorem inThreeForms_of_threeForms {opRR opRM opRI : Byte} {rr rm ri : Byte → Byte → Instr}
    {Effect : State → State → Reg → Byte → Byte → Prop} {P : State → Reg → Byte → Byte → State → Prop}
    (h : ThreeForms opRR opRM opRI rr rm ri Effect) (himp : ∀ s rd x y t, Effect s t rd x y → P s rd x y t) :
    InThreeForms rr rm ri P := by
  obtain ⟨-, hregister, hmemory, himmediate, -, -⟩ := h
  exact ⟨fun s rd rs => (hregister s rd rs).imp (himp s rd _ _), fun s rd m => (hmemory s rd m).imp (himp s rd _ _),
    fun s rd i => (himmediate s rd i).imp (himp s rd _ _)⟩

/-- Flags that say `x = y` and `x < y` decide all six unsigned comparisons of R88's table. -/
theorem jumpsCompare_of_flags {t : State} {x y past : Byte} (hz : Zset t ↔ x = y) (hc : Cset t ↔ x < y)
    (hpast : t.ip + 2 = past) (a : Byte) : JumpsCompare x y a past t := by
  obtain ⟨hjz, hjnz, hjc, hjnc, hja, hjna⟩ := Proofs.conditionalJumps
  have habove : ¬ Zset t ∧ ¬ Cset t ↔ y < x := by
    rw [hz, hc]
    bv_omega
  have hnotAbove : Zset t ∨ Cset t ↔ ¬ y < x := by
    rw [hz, hc]
    bv_omega
  exact ⟨hjz.ip_eq_ite hz hpast a, hjnz.ip_eq_ite (not_congr hz) hpast a, hjc.ip_eq_ite hc hpast a,
    hjnc.ip_eq_ite (not_congr hc) hpast a, hja.ip_eq_ite habove hpast a, hjna.ip_eq_ite hnotAbove hpast a⟩

/-- A 3-byte instruction and then a 2-byte one. -/
theorem ip_past_five {s t : State} (h : t.ip = s.ip + 3) : t.ip + 2 = s.ip + 5 := by
  rw [h, BitVec.add_assoc]
  rfl

end Sys2Proof.Machine

namespace Sys2Proof.Proofs

open Sys2Proof.Machine Sys2Proof.Spec

/-- Settles O14: a jump reads `Z` and `C` only, which after a compare are the comparison and after a sum of 256 say that
it is not 0. -/
theorem jumpsFollowTheConditionTable : Obligations.JumpsFollowTheConditionTable := by
  refine ⟨fun cfg s a hbound => ?table, defaultConfig_jumpBound,
    inThreeForms_of_threeForms cmpInThreeForms fun s _ x y t ht a => ?compare,
    inThreeForms_of_threeForms addInThreeForms fun s rd x y t ht hip hfl hsum => ?add⟩
  case table =>
    have hjump := fun taken => ip_jumpIf_of_accepted hbound taken s
    exact ⟨hjump _, hjump _, hjump _, hjump _, hjump _, hjump _, hjump _⟩
  case compare =>
    obtain ⟨⟨hz, hc, -⟩, htip, -, -⟩ := ht
    exact jumpsCompare_of_flags hz hc (ip_past_five htip) a
  case add =>
    obtain ⟨hrd, hflags, htip, -, -⟩ := ht
    obtain ⟨hz, -, -⟩ := hflags hfl
    obtain ⟨hjz, -⟩ := conditionalJumps
    have hwraps : x + y = 0 := by bv_omega
    have hnz : Zset t ↔ False := hz.trans (iff_false_intro (by bv_omega))
    exact ⟨hrd.trans hwraps, fun a =>
      (hjz.ip_eq_ite hnz (ip_past_five (htip hip)) a).imp fun _ hu => hu.trans (if_neg not_false)⟩

/-- Settles O20: the bound is asked only when the jump's test holds. -/
theorem rejectedTargetFaultsOnlyWhenTaken : Obligations.RejectedTargetFaultsOnlyWhenTaken := by
  intro cfg a s hbound faults goesOn
  have hfaults : Next (jumpIf cfg true a s) faults :=
    ⟨_, jumpIf_of_rejected hbound s, rfl, rfl, rfl, flag_err_raiseFault cfg _ s⟩
  have hjump (taken : Bool) (p : Prop) [Decidable p] (hp : taken = true ↔ p) :
      Next (jumpIf cfg taken a s) (if p then faults else goesOn) :=
    Next.ite (fun h => hp.2 h ▸ hfaults) fun h => jumpIf_of_not_taken (Bool.eq_false_of_not_eq_true (mt hp.1 h)) s
  have hjumpNot (taken : Bool) (p : Prop) [Decidable p] (hp : taken = true ↔ ¬ p) :
      Next (jumpIf cfg taken a s) (if p then goesOn else faults) :=
    ite_not p faults goesOn ▸ hjump taken (¬ p) hp
  refine ⟨hfaults, hjump _ _ ?jz, hjumpNot _ _ ?jnz, hjump _ _ ?jc, hjumpNot _ _ ?jnc, hjumpNot _ _ ?ja, hjump _ _ ?jna⟩
  case jz => exact Iff.rfl
  case jnz => exact Bool.not_iff_not
  case jc => exact Iff.rfl
  case jnc => exact Bool.not_iff_not
  case ja => exact (nor_eq_true_iff _ _).trans not_or.symm
  case jna => exact Bool.or_eq_true_iff

end Sys2Proof.Proofs
end

section
/-! The fault message reaches the machine at one place, the stream of a raised fault, so replacing it can change nothing
else a step leaves: O42. -/

namespace Sys2Proof

/-- The configuration with its fault message replaced (R6, D17). -/
def Config.withFaultMessage (cfg : Config) (msg : FaultKind → List Byte) : Config :=
  { cfg with faultMessage := msg }

end Sys2Proof

namespace Sys2Proof.Machine

/-- Where the first outcome is a next state, so is the second, and the same one but for the stream. -/
def SameButStream (o o' : Host.Outcome State Fault Refusal) : Prop :=
  ∀ t, o = .next t → ∃ out, o' = .next { t with diag := out }

theorem SameButStream.refl (o : Host.Outcome State Fault Refusal) : SameButStream o o :=
  fun t h => ⟨t.diag, h⟩

@[simp] theorem State.readReg_setDiag (s : State) (out : List DiagByte) (r : Reg) :
    ({ s with diag := out } : State).readReg r = s.readReg r := by
  cases r <;> rfl

/-- A running machine whose opcode byte is unmapped raises the fault (R45). -/
theorem stepBy_of_unmapped {cfg : Config} {run : Instr → State → Host.Outcome State Fault Refusal} {s : State}
    {b : Byte} (hs : s.status = .running) (hb : fetchDecode cfg s = .error (.unmappedOpcode b)) :
    stepBy cfg run s = .next (raiseFault cfg .unmappedOpcode s) := by
  simp only [stepBy, hs, hb, finish_trap]

section
variable (cfg : Config) (msg : FaultKind → List Byte) (s : State)

/-- Of what a fault leaves, the message is in the stream only (R98, R99). -/
theorem raiseFault_withFaultMessage (kind : FaultKind) :
    raiseFault (cfg.withFaultMessage msg) kind s =
      { raiseFault cfg kind s with diag := s.diag ++ diagStream (cfg.withFaultMessage msg) kind s.mem } := rfl

/-- Decoding uses the opcode map only (R44). -/
theorem fetchDecode_withFaultMessage : fetchDecode (cfg.withFaultMessage msg) s = fetchDecode cfg s := rfl

theorem sameButStream_raiseFault (kind : FaultKind) :
    SameButStream (.next (raiseFault cfg kind s)) (.next (raiseFault (cfg.withFaultMessage msg) kind s)) := by
  intro t h
  cases h
  exact ⟨_, congrArg _ (raiseFault_withFaultMessage cfg msg s kind)⟩

/-- The same pseudocode result, formed into an outcome under either message. -/
theorem sameButStream_finish (result : Except Raise State) :
    SameButStream (finish cfg s result) (finish (cfg.withFaultMessage msg) s result) := by
  match result with
  | .ok t => exact .refl _
  | .error (.trap kind) => exact sameButStream_raiseFault cfg msg s kind
  | .error (.stop reason) => exact .refl _

/-- `HLT` uses no parameter; every other instruction is `finish` of pseudocode that uses the register ids, the flag
positions and the jump bound, and not the message. -/
theorem sameButStream_execWith (i : Instr) :
    SameButStream (execWith cfg i s) (execWith (cfg.withFaultMessage msg) i s) := by
  cases i with
  | hlt => exact .refl _
  | _ => exact sameButStream_finish cfg msg s _

/-- The message decides neither whether a step runs nor what it fetches (R49, R50). -/
theorem sameButStream_stepWith : SameButStream (stepWith cfg s) (stepWith (cfg.withFaultMessage msg) s) := by
  have hfetch := fetchDecode_withFaultMessage cfg msg s
  unfold stepWith
  obtain ⟨hs, hstep⟩ | ⟨hs, i, hi, hstep⟩ | ⟨hs, ⟨b, hb⟩, hstep⟩ := stepBy_cases cfg (execWith cfg) s
  · rw [hstep, stepBy_of_not_running hs]
    exact .refl _
  · rw [hstep, stepBy_of_fetchDecode hs (hfetch.trans hi)]
    exact sameButStream_execWith cfg msg s i
  · rw [hstep, stepBy_of_unmapped hs (hfetch.trans hb)]
    exact sameButStream_raiseFault cfg msg s .unmappedOpcode

end

end Sys2Proof.Machine

namespace Sys2Proof.Proofs

open Sys2Proof.Machine

/-- Settles O42: the step under the other message answers the same state but for its stream. -/
theorem onlyTheStreamDependsOnTheFaultMessage : Obligations.OnlyTheStreamDependsOnTheFaultMessage := by
  intro cfg msg s t h
  obtain ⟨out, hout⟩ := sameButStream_stepWith cfg msg s t h
  exact ⟨_, hout, State.readReg_setDiag t out, rfl, rfl⟩

end Sys2Proof.Proofs
end

section
/-! The reset case of the fault report's invariant: reset leaves the machine running with nothing emitted. With O33 the
invariant then holds of every state reached from reset. -/

namespace Sys2Proof.Machine

@[simp] theorem State.reset_status : State.reset.status = .running := rfl

@[simp] theorem State.reset_diag : State.reset.diag = [] := rfl

end Sys2Proof.Machine

namespace Sys2Proof.Proofs

open Sys2Proof.Machine

/-- Settles O34: a running machine's report is consistent when its stream is empty, whatever the configuration. -/
theorem resetFaultReportIsConsistent : Obligations.ResetFaultReportIsConsistent :=
  fun _ => (reportConsistent_iff_of_running State.reset_status).2 State.reset_diag

end Sys2Proof.Proofs
end

section
/-! `NOT`, the order in which an ALU instruction writes its results, and the addressing resolver: O10, O16 and O17. -/

namespace Sys2Proof.Machine

open Sys2Proof.Spec

/-- Complementing a byte subtracts it from 255 (R83). -/
theorem complement_eq_sub (v : Byte) : ~~~v = BitVec.ofNat 8 (255 - v.toNat) := by
  have hv := v.isLt
  refine BitVec.eq_of_toNat_eq ?_
  rw [BitVec.toNat_not, BitVec.toNat_ofNat]
  omega

/-- What `NOT` does to a slot once its two bytes are fetched (R83). -/
theorem registerWritten_complement (rr : Reg) (s : State) :
    RegisterWritten s ((s.advance 2).writeReg rr (~~~((s.advance 2).readReg rr))) 2 rr
      (BitVec.ofNat 8 (255 - (operand s 2 rr).toNat)) := by
  have hread : (s.advance 2).readReg rr = operand s 2 rr := State.readReg_advance s 2 rr
  rw [hread, ← complement_eq_sub]
  exact registerWritten_writeReg_advance 2 rr _ s

end Sys2Proof.Machine

namespace Sys2Proof.Proofs

open Sys2Proof.Machine

/-- Settles O10: `NOT` writes its one slot without calling `operate`, so a destination `FL` keeps the complemented
byte. -/
theorem notComplementsWithoutFlags : Obligations.NotComplementsWithoutFlags := by
  refine oneRegister_of_withOperands (fun _ => rfl) complement_eq_withOperands fun s rr =>
    ⟨registerWritten_complement rr s, ?flBits⟩
  case flBits =>
    rintro rfl k hk
    rw [State.writeReg_fl_fl, State.readReg_fl, State.advance_fl, BitVec.getLsbD_not, decide_eq_true hk, Bool.true_and]

/-- Settles O16: the last write is the destination's, and it meets `FL` only when `FL` is the destination. -/
theorem destinationIsWrittenAfterTheFlags : Obligations.DestinationIsWrittenAfterTheFlags :=
  fun cfg rd x s => ⟨State.readReg_writeReg_same _ rd _, operateInto_fl cfg x s⟩

/-- Settles O17: two bytes sum to at most 510, which is inside memory. -/
theorem effectiveAddressIsAPlainSum : Obligations.EffectiveAddressIsAPlainSum := by
  intro s m v
  rw [← effectiveAddress_eq]
  exact ⟨rfl, Nat.le_of_lt_succ (effectiveAddress_lt s m), memRead_effectiveAddress s s m,
    memWrite_effectiveAddress s s m v⟩

end Sys2Proof.Proofs
end

section
/-! The fault entry and its stream: what a raised fault leaves under any configuration, what a step can emit, and O18
and O19. -/

namespace Sys2Proof.Machine

open Sys2Proof.Spec

/-! ### What a fault leaves, and when a step raises one -/

/-- Raising a fault keeps all but `ERR`, the status and the stream, wherever `ERR` stands (R98). -/
theorem faultReported_raiseFault (cfg : Config) (kind : FaultKind) (s : State) :
    FaultReported cfg kind s (raiseFault cfg kind s) :=
  ⟨rfl, getLsbD_byteWithBit s.fl (cfg.flagBits.bitOf .err) true,
    fun _ hr => State.readReg_raiseFault_of_ne cfg kind s hr, rfl, rfl⟩

section
variable {cfg : Config} {s t : State}

/-- A step emits nothing and keeps the status or halts, or it ends in a raised fault of a running machine. -/
theorem StepEnds.silent_or_raiseFault (h : StepEnds cfg s t) :
    (t.diag = s.diag ∧ t.status = s.status) ∨ (t.diag = s.diag ∧ t.status = .halted) ∨
      ∃ kind, s.status = .running ∧ t = raiseFault cfg kind s := by
  cases h with
  | idle => exact .inl ⟨rfl, rfl⟩
  | runs i hs _ h =>
    cases h with
    | halts => exact .inr (.inl ⟨rfl, rfl⟩)
    | completes h => exact .inl ⟨h.diag, h.status⟩
    | faults kind => exact .inr (.inr ⟨kind, hs, rfl⟩)
  | unmapped hs => exact .inr (.inr ⟨_, hs, rfl⟩)

/-- A running machine becomes Faulted by a raised fault only (R97, R98). -/
theorem StepEnds.eq_raiseFault {kind : FaultKind} (h : StepEnds cfg s t) (hs : s.status = .running)
    (ht : t.status = .faulted kind) : t = raiseFault cfg kind s := by
  obtain ⟨-, hsame⟩ | ⟨-, hhalt⟩ | ⟨kind', -, rfl⟩ := h.silent_or_raiseFault
  · exact nomatch ht.symm.trans (hsame.trans hs)
  · exact nomatch ht.symm.trans hhalt
  · cases ht
    rfl

/-- A step that does not make the machine Faulted emits nothing (R99). -/
theorem StepEnds.diag_of_not_faulted (h : StepEnds cfg s t) (ht : ∀ kind, t.status ≠ .faulted kind) :
    t.diag = s.diag := by
  obtain ⟨hdiag, -⟩ | ⟨hdiag, -⟩ | ⟨kind, -, rfl⟩ := h.silent_or_raiseFault
  · exact hdiag
  · exact hdiag
  · exact absurd rfl (ht kind)

end

/-! ### The stream -/

/-- A stream carries its bytes in order, and its last transfer alone is marked (R99). -/
theorem getElem?_markLast (l : List Byte) (k : Nat) :
    (markLast l)[k]? = l[k]?.map fun v => ⟨v, decide (k + 1 = l.length)⟩ := by
  induction l generalizing k with
  | nil => rfl
  | cons v rest ih =>
    cases rest with
    | nil => cases k <;> rfl
    | cons w rest =>
      cases k with
      | zero => simp [markLast]
      | succ k => simpa [markLast] using ih k

@[simp] theorem length_markLast (l : List Byte) : (markLast l).length = l.length := by
  rw [← List.length_map (f := DiagByte.data), map_data_markLast]

/-- The bytes of the stream are the window's and then the message's (R99, C3). -/
theorem map_data_diagStream (cfg : Config) (kind : FaultKind) (m : Memory) :
    (diagStream cfg kind m).map DiagByte.data = diagWindow m ++ cfg.faultMessage kind :=
  map_data_markLast _

/-- `diag_last` is set on the stream's final transfer and on no other (R99). -/
theorem last_of_getElem?_diagStream {cfg : Config} {kind : FaultKind} {m : Memory} {k : Nat} {e : DiagByte}
    (h : (diagStream cfg kind m)[k]? = some e) : e.last = decide (k + 1 = (diagStream cfg kind m).length) := by
  rw [diagStream, getElem?_markLast] at h
  obtain ⟨v, -, rfl⟩ := Option.map_eq_some_iff.1 h
  rw [diagStream, length_markLast]

end Sys2Proof.Machine

namespace Sys2Proof.Proofs

open Sys2Proof.Machine

/-- Settles O18: whatever the pseudocode did, `finish` starts from the saved state, and no other end of a step makes a
running machine Faulted. -/
theorem faultEntryRestoresAndSetsErr : Obligations.FaultEntryRestoresAndSetsErr := by
  refine ⟨fun cfg kind s => ⟨_, finish_trap cfg s kind, faultReported_raiseFault cfg kind s⟩, ?steps⟩
  case steps =>
    intro cfg kind s t hs hrun ht
    rw [(stepWith_ends hrun).eq_raiseFault hs ht]
    exact faultReported_raiseFault cfg kind s

/-- Settles O19: the stream is `markLast` of the window and the message, and only a raised fault appends one. -/
theorem diagnosticStreamIsWindowThenMessage : Obligations.DiagnosticStreamIsWindowThenMessage := by
  refine ⟨fun cfg kind m => ⟨map_data_diagStream cfg kind m, fun _ _ => last_of_getElem?_diagStream⟩, ?steps⟩
  case steps =>
    intro cfg s t hrun
    refine (stepWith_ends hrun).silent_or_raiseFault.imp_right (.imp_right ?_)
    rintro ⟨kind, hs, rfl⟩
    exact ⟨kind, hs, rfl, rfl⟩

end Sys2Proof.Proofs
end

section
/-! What the decoder reads: the bytes of the opcode table, the bytes outside it, and a placed word. O21, O24 and O26. -/

namespace Sys2Proof

/-! ### The default map -/

/-- Under the default map the byte of an opcode name selects the name's instruction (R44). -/
theorem decode_defaultOpcodeByte (o : Op) (b1 b2 : Byte) : decode (defaultOpcodeByte o) b1 b2 = .ok (o.build b1 b2) :=
  (decodeWith_eq_ok_iff ..).2 ⟨o, rfl, rfl⟩

/-- The default map's image is the bytes below 0x22 (R44, D1). -/
theorem exists_defaultOpcodeByte_eq_iff (b : Byte) : (∃ o, defaultOpcodeByte o = b) ↔ b.toNat < 0x22 := by
  constructor
  · rintro ⟨o, rfl⟩
    cases o <;> decide
  · intro hb
    have table : ∀ n : Fin 0x22, ∃ o ∈ Op.all, defaultOpcodeByte o = BitVec.ofNat 8 n.val := by decide
    obtain ⟨o, -, ho⟩ := table ⟨b.toNat, hb⟩
    exact ⟨o, ho.trans (by simp)⟩

/-! ### Bytes that select nothing -/

/-- The decoder refuses exactly the bytes outside the map's image (R45). -/
theorem decodeWith_ne_ok_iff (m : OpcodeMap) (b0 b1 b2 : Byte) :
    (∀ i, decodeWith m b0 b1 b2 ≠ .ok i) ↔ ∀ o, m.byteOf o ≠ b0 := by
  constructor
  · exact fun h o ho => h _ ((decodeWith_eq_ok_iff ..).2 ⟨o, ho, rfl⟩)
  · intro h i hi
    obtain ⟨o, ho, -⟩ := (decodeWith_eq_ok_iff ..).1 hi
    exact h o ho

/-- The default decoder refuses exactly the bytes from 0x22 up (R45). -/
theorem decode_ne_ok_iff (b0 b1 b2 : Byte) : (∀ i, decode b0 b1 b2 ≠ .ok i) ↔ 0x22 ≤ b0.toNat := by
  rw [← Nat.not_lt, ← exists_defaultOpcodeByte_eq_iff, not_exists]
  exact decodeWith_ne_ok_iff defaultOpcodeMap b0 b1 b2

/-- What the decoder says of a byte outside the map's image (R45). -/
theorem decodeWith_of_unmapped {m : OpcodeMap} {b0 : Byte} (h : ∀ o, m.byteOf o ≠ b0) (b1 b2 : Byte) :
    decodeWith m b0 b1 b2 = .error (.unmappedOpcode b0) := by
  rw [decodeWith, (opWithByte_eq_none_iff m.byteOf b0).2 h]

/-- The default decoder names the byte it refuses (R45). -/
theorem decode_of_ge {b0 : Byte} (h : 0x22 ≤ b0.toNat) (b1 b2 : Byte) :
    decode b0 b1 b2 = .error (.unmappedOpcode b0) :=
  decodeWith_of_unmapped ((decodeWith_ne_ok_iff ..).1 ((decode_ne_ok_iff b0 b1 b2).2 h)) b1 b2

/-- A table word stands for what its three bytes decode to. -/
theorem decodeTableWord_eq_some_iff (nbits w : Nat) (i : Instr) :
    decodeTableWord nbits w = some i ↔
      decode (tableByte nbits w 0) (tableByte nbits w 1) (tableByte nbits w 2) = .ok i := by
  unfold decodeTableWord
  split <;> simp [*]

end Sys2Proof

namespace Sys2Proof.Machine

open Sys2Proof.Spec

/-- The first fetched byte is the one at `IP` (R51). -/
theorem fetchByte_zero (s : State) : fetchByte 0 s = Memory.read s.mem s.ip.toNat := by
  rw [fetchByte, fetchAddress_eq, Nat.add_zero, Nat.mod_eq_of_lt s.ip.isLt]

/-- What the next step of a machine with a placed word fetches (log entry 8). -/
theorem fetchDecode_withFetchWord (cfg : Config) {s : State} (hs : MemoryCanonical s) (nbits w : Nat) :
    fetchDecode cfg (s.withFetchWord nbits w) =
      decodeWith cfg.opcodeMap (tableByte nbits w 0) (tableByte nbits w 1) (tableByte nbits w 2) := by
  obtain ⟨h0, h1, h2⟩ := fetchByte_placeAtFetch hs (tableByte nbits w 0) (tableByte nbits w 1) (tableByte nbits w 2)
  rw [fetchDecode, State.withFetchWord, h0, h1, h2]

end Sys2Proof.Machine

namespace Sys2Proof.Proofs

open Sys2Proof.Machine

/-- Settles O21: each mapped byte is that of its opcode name, and 0x22 is the lowest byte past the table. -/
theorem wordsOfTheTableDecode : Obligations.WordsOfTheTableDecode :=
  ⟨decode_defaultOpcodeByte .hlt 0x11 0x22, decode_defaultOpcodeByte .incR 0x03 0xFF,
    decode_defaultOpcodeByte .jnzI 0x03 0xFF, decode_defaultOpcodeByte .subRR 0x00 0x01,
    decode_defaultOpcodeByte .movRM 0x07 0xFF, decode_defaultOpcodeByte .cmpRI 0x00 0x0A,
    decode_defaultOpcodeByte .movMR 0x10 0x00, decode_defaultOpcodeByte .movMI 0xFF 0x99,
    decode_of_ge (by decide) 0x00 0x00⟩

/-- Settles O24: the decoder refuses what no opcode name has as its byte, and a running machine that fetched nothing
raises the fault in place. -/
theorem unmappedOpcodesFault : Obligations.UnmappedOpcodesFault := by
  refine ⟨decodeWith_ne_ok_iff, decode_ne_ok_iff, fun s hs hb => ?default, fun cfg s hs hb => ?anyMap⟩
  case default =>
    have hnone : ∀ i, Spec.fetched s ≠ .ok i := (decode_ne_ok_iff _ _ _).2 hb
    exact ⟨_, step_of_not_fetched hs hnone, faultTaken_raiseFault .unmappedOpcode s⟩
  case anyMap =>
    have herr : fetchDecode cfg s = .error (.unmappedOpcode (fetchByte 0 s)) :=
      decodeWith_of_unmapped (by rwa [fetchByte_zero]) _ _
    exact ⟨_, stepBy_of_unmapped hs herr, faultReported_raiseFault cfg .unmappedOpcode s⟩

/-- Settles O26: the placed bytes are the fetched ones, and placing them leaves the machine running. -/
theorem placedWordIsWhatTheNextStepRuns : Obligations.PlacedWordIsWhatTheNextStepRuns := by
  intro s nbits w i hs hi
  have hfetch := fetchDecode_withFetchWord defaultConfig hs nbits w
  exact stepBy_of_fetchDecode rfl (hfetch.trans ((decodeTableWord_eq_some_iff nbits w i).1 hi))

end Sys2Proof.Proofs
end

section
/-! Reset, the ports and the boot order: the equation of each kind of transaction, what `rst` and the load port leave,
what the boot order has loaded after each byte, and O27, O32, O43, O44, O45 and O46. -/

namespace Sys2Proof.Machine

open Sys2Proof.Spec

/-! ### The kinds of transaction, as equations -/

section
variable {p : PortIn}

theorem transact_of_rst (hr : p.rst = true) (hl : p.loadWe = false) (s : State) :
    transact p s = .next (applyRst s) := by
  simp [transact, hr, hl]

theorem transact_of_load (hr : p.rst = true) (hl : p.loadWe = true) (s : State) :
    transact p s = .next (loadByte p.loadAddr p.loadData (applyRst s)) := by
  simp [transact, hr, hl]

theorem transact_of_request (hr : p.rst = false) (hq : p.stepReq = true) (s : State) : transact p s = step s := by
  simp [transact, hr, hq]

theorem transact_of_no_request (hr : p.rst = false) (hq : p.stepReq = false) (s : State) :
    transact p s = .next s := by
  simp [transact, hr, hq]

/-- After the end of the run a transaction without `rst` changes nothing, requested or not (R49, D12). -/
theorem transact_of_not_running (hr : p.rst = false) {s : State} (hs : s.status ≠ .running) :
    transact p s = .next s := by
  cases hq : p.stepReq with
  | true => exact (transact_of_request hr hq s).trans (stepBy_of_not_running hs)
  | false => exact transact_of_no_request hr hq s

/-- Every transaction answers a next state (R27, R28). -/
theorem transact_exists_next (p : PortIn) (s : State) : ∃ t, transact p s = .next t := by
  obtain ⟨-, -, h⟩ | ⟨-, -, h⟩ | ⟨-, -, h⟩ | ⟨-, -, h⟩ := transact_cases p s
  · exact ⟨_, h⟩
  · exact ⟨_, h⟩
  · obtain ⟨steps, -⟩ := Proofs.everyStepAnswersANextState
    exact (steps s).imp fun _ ht => h.trans ht
  · exact ⟨_, h⟩

/-! ### What the output ports show -/

/-- `step_result` is shown for a served request, from the status it leaves (R54). -/
theorem portOut_stepResult_of_request (hr : p.rst = false) (hq : p.stepReq = true) (s t : State) :
    (portOut p s t).stepResult = some (resultOf t.status) :=
  (portOut_stepResult p s t).trans (if_pos ⟨hr, hq⟩)

theorem portOut_stepResult_of_no_request (h : p.rst = true ∨ p.stepReq = false) (s t : State) :
    (portOut p s t).stepResult = none := by
  refine (portOut_stepResult p s t).trans (if_neg ?_)
  rintro ⟨hr, hq⟩
  simp [hr, hq] at h

/-- Where the stream is as before, `diag` shows nothing. -/
theorem portOut_diag_of_eq (hr : p.rst = false) {s t : State} (h : t.diag = s.diag) : (portOut p s t).diag = [] :=
  portOut_diag_of_append hr (h.trans (List.append_nil _).symm)

theorem portOut_diag_of_rst (hr : p.rst = true) (s t : State) : (portOut p s t).diag = [] := by
  simp [portOut, hr]

end

/-! ### What `rst` and the load port leave -/

theorem afterRst_applyRst (s : State) : AfterRst (applyRst s) := ⟨applyRst_readReg s, rfl, rfl⟩

/-- The reset state is what `rst` makes of itself (R105; log entry 8). -/
theorem afterRst_reset : AfterRst State.reset := afterRst_applyRst State.reset

/-- The load port writes memory only (R48). -/
theorem afterRst_loadByte {t : State} (h : AfterRst t) (addr : BitVec 16) (v : Byte) :
    AfterRst (loadByte addr v t) := by
  obtain ⟨hregs, hstatus, hdiag⟩ := h
  exact ⟨fun r => (loadByte_readReg addr v t r).trans (hregs r), hstatus, hdiag⟩

/-- An address inside memory fits the load port whole (R26, R48). -/
theorem loadByte_ofNat_mem {n : Nat} (hn : n < memSize) (v : Byte) (s : State) :
    (loadByte (BitVec.ofNat 16 n) v s).mem = Memory.write s.mem n v := by
  have haddr : (BitVec.ofNat 16 n).toNat = n := (BitVec.toNat_ofNat n 16).trans (Nat.mod_eq_of_lt hn)
  rw [loadByte_mem, haddr]

/-! ### The boot order -/

/-- One transaction before the others. -/
theorem drive_cons_of_transact {p : PortIn} {s t : State} (h : transact p s = .next t) (rest : List PortIn) :
    drive (p :: rest) s = drive rest t := by
  simp only [drive, h]

/-- Transactions that end in `t`, and then others from `t`. -/
theorem drive_append_of_drive {ps : List PortIn} {s t : State} (h : drive ps s = .next t) (qs : List PortIn) :
    drive (ps ++ qs) s = drive qs t := by
  induction ps generalizing s with
  | nil =>
    cases h
    rfl
  | cons p rest ih =>
    obtain ⟨u, hu⟩ := transact_exists_next p s
    rw [List.cons_append, drive_cons_of_transact hu]
    exact ih ((drive_cons_of_transact hu rest).symm.trans h)

theorem drive_exists_next (ps : List PortIn) (s : State) : ∃ t, drive ps s = .next t := by
  induction ps generalizing s with
  | nil => exact ⟨s, rfl⟩
  | cons p rest ih =>
    obtain ⟨u, hu⟩ := transact_exists_next p s
    exact (ih u).imp fun _ ht => (drive_cons_of_transact hu rest).trans ht

/-- An image that fits is driven in, and a longer one is refused (R106, U6; log entry 14). -/
theorem boot_of_le {image : List Byte} (h : image.length ≤ memSize) (s : State) :
    boot image s = drive (bootInputs image) s := if_pos h

theorem boot_of_gt {image : List Byte} (h : memSize < image.length) (s : State) :
    boot image s = .refused (.imageTooLarge image.length) := if_neg (Nat.not_le.2 h)

/-- The state once the boot order has loaded the first `n` bytes: as after `rst`, memory canonical, and the addresses
below `n` holding the image, padded with zeros (R106, R107). -/
structure Loaded (image : List Byte) (n : Nat) (t : State) : Prop where
  afterRst : AfterRst t
  canonical : MemoryCanonical t
  byte : ∀ x, x < n → Memory.read t.mem x = image.getD x 0

section
variable {image : List Byte} {s t : State} {n : Nat}

theorem loaded_applyRst (hs : MemoryCanonical s) : Loaded image 0 (applyRst s) where
  afterRst := afterRst_applyRst s
  canonical := hs
  byte := fun x hx => absurd hx (Nat.not_lt_zero x)

/-- The load of one more byte adds it, and keeps those before it (R107 step 2). -/
theorem Loaded.load (h : Loaded image n t) (hn : n < memSize) :
    Next (transact (loadInput n (image.getD n 0)) t) (Loaded image (n + 1)) := by
  have hmem := loadByte_ofNat_mem hn (image.getD n 0) (applyRst t)
  refine ⟨loadByte (BitVec.ofNat 16 n) (image.getD n 0) (applyRst t), transact_of_load rfl rfl t,
    afterRst_loadByte (afterRst_applyRst t) _ _, ?canonical, ?byte⟩
  case canonical =>
    rw [MemoryCanonical, hmem]
    exact Memory.wf_write _ h.canonical hn
  case byte =>
    intro x hx
    rw [hmem, Memory.read_write (m := (applyRst t).mem) h.canonical]
    split
    case isTrue heq => rw [heq]
    case isFalse hne => exact h.byte x (by omega)

/-- Loading the first `n` addresses one after another, by induction on their number. -/
theorem Loaded.drive_loads (h : Loaded image 0 t) (hn : n ≤ memSize) :
    Next (drive ((List.range n).map fun k => loadInput k (image.getD k 0)) t) (Loaded image n) := by
  induction n with
  | zero => exact ⟨t, rfl, h⟩
  | succ n ih =>
    obtain ⟨u, hdrive, hu⟩ := ih (Nat.le_of_succ_le hn)
    obtain ⟨v, hload, hv⟩ := hu.load hn
    refine ⟨v, ?_, hv⟩
    rw [List.range_succ, List.map_append, drive_append_of_drive hdrive]
    exact drive_cons_of_transact hload []

/-- The boot order loads all of memory (R107). -/
theorem boot_loaded (hlen : image.length ≤ memSize) (hs : MemoryCanonical s) :
    Next (boot image s) (Loaded image memSize) := by
  have hrst : transact rstInput s = .next (applyRst s) := transact_of_rst rfl rfl s
  rw [boot_of_le hlen, bootInputs, drive_cons_of_transact hrst]
  exact (loaded_applyRst hs).drive_loads (Nat.le_refl memSize)

end

end Sys2Proof.Machine

namespace Sys2Proof.Proofs

open Sys2Proof.Machine Sys2Proof.Spec

/-- Settles O27: the latch is `stepBy`'s, and both ways of `rst` leave the machine running. -/
theorem endedRunsStayEnded : Obligations.EndedRunsStayEnded := by
  refine ⟨fun p s hr hq => transact_of_no_request hr hq s,
    fun p s hr hs => ⟨transact_of_not_running hr hs, ?request⟩, fun p s hr => ?rst⟩
  case request => exact fun hq => ⟨portOut_stepResult_of_request hr hq s s, portOut_diag_of_eq hr rfl⟩
  case rst =>
    cases hl : p.loadWe with
    | false => exact ⟨_, transact_of_rst hr hl s, rfl⟩
    | true => exact ⟨_, transact_of_load hr hl s, rfl⟩

/-- Settles O32: the empty list is canonical. -/
theorem resetMemoryIsCanonical : Obligations.ResetMemoryIsCanonical := Memory.wf_reset

/-- Settles O43: the registers are those after `rst`, and a memory that lists nothing reads 0. -/
theorem resetStateValues : Obligations.ResetStateValues := by
  obtain ⟨hregs, hstatus, hdiag⟩ := afterRst_reset
  exact ⟨hregs, Memory.read_nil, hstatus, hdiag⟩

/-- Settles O44: every address is loaded, those past the image with zero. -/
theorem launchLoadsTheImage : Obligations.LaunchLoadsTheImage := by
  intro image s hs hlen
  refine (boot_loaded hlen hs).imp fun t ht => ?_
  obtain ⟨hregs, hstatus, hdiag⟩ := ht.afterRst
  refine ⟨hregs, fun x hx => ?image, fun x hx hmax => ?zeros, hstatus, hdiag, ht.canonical⟩
  case image => exact ht.byte x (Nat.lt_of_lt_of_le hx hlen)
  case zeros => exact (ht.byte x hmax).trans (List.getD_eq_default _ _ hx)

/-- Settles O45: the length is tested before any transaction, and every transaction answers a next state. -/
theorem tooLongAnImageIsRefused : Obligations.TooLongAnImageIsRefused := by
  refine fun image s => ⟨fun hgt => boot_of_gt hgt s, fun hle => ?fits⟩
  case fits =>
    rw [boot_of_le hle]
    exact drive_exists_next (bootInputs image) s

/-- Settles O46: one equation for each kind of transaction, and for a step the three ways it can end. -/
theorem portsFollowTheirTable : Obligations.PortsFollowTheirTable := by
  refine ⟨fun p s hr hl => ?rst, fun p s hr hl => ?load, fun p s hr hq => ?noRequest, fun p s hr hq hs => ?step,
    fun p s hr hq hs => ?ended, fun p s t hr hq => ?result, fun p s t => (portOut_stepResult_of_no_request · s t),
    fun p s t hr => portOut_diag_of_rst hr s t, fun p s t => ⟨rfl, rfl, rfl⟩⟩
  case rst => exact ⟨_, transact_of_rst hr hl s, afterRst_applyRst s, fun _ => rfl⟩
  case load =>
    refine ⟨_, transact_of_load hr hl s, afterRst_loadByte (afterRst_applyRst s) _ _, fun hs => ?written,
      fun x hx => ?kept⟩
    case written => exact (Memory.read_write hs _ _ _).trans (if_pos rfl)
    case kept => exact Memory.read_write_of_ne s.mem p.loadData hx
  case noRequest => exact ⟨transact_of_no_request hr hq s, portOut_diag_of_eq hr rfl⟩
  case step =>
    obtain ⟨steps, -⟩ := everyStepAnswersANextState
    obtain ⟨t, ht⟩ := steps s
    refine ⟨t, (transact_of_request hr hq s).trans ht, ht, fun hfault => ?silent, fun kind hfault => ?stream⟩
    case silent => exact portOut_diag_of_eq hr ((step_ends ht).diag_of_not_faulted hfault)
    case stream =>
      rw [(step_ends ht).eq_raiseFault hs hfault]
      exact portOut_diag_of_append hr (State.raiseFault_diag defaultConfig kind s)
  case ended => exact ⟨transact_of_not_running hr hs, portOut_diag_of_eq hr rfl⟩
  case result =>
    have hshown := portOut_stepResult_of_request hr hq s t
    exact ⟨fun h => by rw [hshown, h, resultOf_running], fun h => by rw [hshown, h, resultOf_halted],
      fun kind h => by rw [hshown, h, resultOf_faulted]⟩

end Sys2Proof.Proofs
end
